-- ==== Sys2Proof/Word.lean ====
section
/-! DEFINITION. The word types of the CORE block: the byte every register, memory cell and operand holds
(00_scope.md R11), the 9-bit program counter value (10_state.md R36), the register index (10_state.md R30) and the
interrupt line number (60_exceptions.md R210). -/

namespace Sys2Proof

/-- A byte, 0 to 255; never signed (00_scope.md R11). -/
abbrev Byte := BitVec 8

/-- A value of the program counter: 9 bits, so that it can hold 256 (10_state.md R36). -/
abbrev PcWord := BitVec 9

/-- An index into the register file, 0 to 7 (10_state.md R30). -/
abbrev RegIx := Fin 8

/-- An interrupt line, 0 to 7 (60_exceptions.md R210). -/
abbrev Line := Fin 8

end Sys2Proof
end

