-- ==== Sys2Proof/Syntax.lean ====
section
/-! DEFINITION. The instructions: one constructor per row of spec/opcode_table.json (30_encoding.md R85). An operand is
one whole byte, as fetched (R82); a register operand byte of 8 or more is ill-formed syntax (WellFormed.lean), and the
machine raises InvalidRegister on it (R83). -/

namespace Sys2Proof

/-- The 32 instructions of 00_scope.md R3, in the order of the opcode table; `a`, `b` are register operand bytes,
`imm` an immediate byte. -/
inductive Instr where
  | add (a b : Byte)
  | sub (a b : Byte)
  | mul (a b : Byte)
  | div (a b : Byte)
  | mod (a b : Byte)
  | inc (a : Byte)
  | dec (a : Byte)
  | cmp (a b : Byte)
  | and (a b : Byte)
  | not (a : Byte)
  | or (a b : Byte)
  | xor (a b : Byte)
  | shl (a b : Byte)
  | shr (a b : Byte)
  | call (a : Byte)
  | ret
  | iret
  | jmp (a : Byte)
  | jeq (a : Byte)
  | jne (a : Byte)
  | jgt (a : Byte)
  | jlt (a : Byte)
  | jle (a : Byte)
  | jge (a : Byte)
  | hlt
  | ldi (a imm : Byte)
  | ld (a b : Byte)
  | st (a b : Byte)
  | push (a : Byte)
  | pop (a : Byte)
  | prn (a : Byte)
  | pra (a : Byte)
  deriving DecidableEq, Repr

end Sys2Proof
end

