-- ==== Sys2Proof/Decode.lean ====
section
/-! DEFINITION. The opcode map (30_encoding.md R85), the decoder (R80 to R87, R93) and the encoder (R82, R85). -/

namespace Sys2Proof

/-- Operand count `AA`, bits 7:6 of an opcode byte (30_encoding.md R80, R81). -/
def opOperandCount (op : Byte) : Nat := (op.extractLsb' 6 2).toNat

/-- `B`, bit 5 of an opcode byte: the ALU executes the instruction (30_encoding.md R81). -/
def opHandledByAlu (op : Byte) : Bool := op.getLsbD 5

/-- `C`, bit 4 of an opcode byte: the instruction sets `pc` itself (30_encoding.md R81). -/
def opSetsPc (op : Byte) : Bool := op.getLsbD 4

/-- What an opcode byte stands for, by the number of operand bytes (30_encoding.md R82: F0, F1R, F2RR and F2RI). -/
inductive Form where
  | f0 (i : Instr)
  | f1 (mk : Byte → Instr)
  | f2 (mk : Byte → Byte → Instr)

/-- The opcode map, row by row (30_encoding.md R85). PRESUMED: the byte values are the LS-8 convention, which the spec
itself takes from general knowledge (92_eei_decisions.md D1; log 1); unsafe. -/
def opcodeTable : List (Byte × Form) :=
  [ (0xA0, .f2 .add), (0xA1, .f2 .sub), (0xA2, .f2 .mul), (0xA3, .f2 .div), (0xA4, .f2 .mod), (0x65, .f1 .inc),
    (0x66, .f1 .dec), (0xA7, .f2 .cmp), (0xA8, .f2 .and), (0x69, .f1 .not), (0xAA, .f2 .or), (0xAB, .f2 .xor),
    (0xAC, .f2 .shl), (0xAD, .f2 .shr) ] ++
  [ (0x50, .f1 .call), (0x11, .f0 .ret), (0x13, .f0 .iret), (0x54, .f1 .jmp), (0x55, .f1 .jeq), (0x56, .f1 .jne),
    (0x57, .f1 .jgt), (0x58, .f1 .jlt), (0x59, .f1 .jle), (0x5A, .f1 .jge) ] ++
  [ (0x01, .f0 .hlt), (0x82, .f2 .ldi), (0x83, .f2 .ld), (0x84, .f2 .st), (0x45, .f1 .push), (0x46, .f1 .pop),
    (0x47, .f1 .prn), (0x48, .f1 .pra) ]

/-- The form of an opcode byte, `none` when the whole byte is not in the map (30_encoding.md R87). -/
def opcodeForm (op : Byte) : Option Form := opcodeTable.lookup op

/-- Why a decoding fails, by name. -/
inductive DecodeError where
  /-- no byte to read an opcode from -/
  | noBytes
  /-- the opcode byte is not in the map (30_encoding.md R87) -/
  | unknownOpcode (op : Byte)
  /-- the opcode is known and its `k`-th operand byte (1 or 2) is not there (30_encoding.md R93) -/
  | missingOperand (op : Byte) (k : Nat)
  deriving DecidableEq, Repr

/-- Decode the first instruction of a byte list and give it with the bytes after it. The opcode is matched before any
operand is looked at (30_encoding.md R87, R93); the operand bytes are taken as they stand (R82). -/
def decode : List Byte → Except DecodeError (Instr × List Byte)
  | [] => .error .noBytes
  | op :: rest =>
    match opcodeForm op with
    | none => .error (.unknownOpcode op)
    | some (.f0 i) => .ok (i, rest)
    | some (.f1 mk) =>
      match rest with
      | [] => .error (.missingOperand op 1)
      | a :: rest' => .ok (mk a, rest')
    | some (.f2 mk) =>
      match rest with
      | [] => .error (.missingOperand op 1)
      | [_] => .error (.missingOperand op 2)
      | a :: b :: rest' => .ok (mk a b, rest')

/-- The error with the opcode byte it names replaced. -/
def DecodeError.withOpcode (op : Byte) : DecodeError → DecodeError
  | .noBytes => .noBytes
  | .unknownOpcode _ => .unknownOpcode op
  | .missingOperand _ k => .missingOperand op k

/-- Decode with an opcode map (OPCODE_MAP of 00_scope.md R9): the opcode byte stands for the instruction of the row the map
gives it, and an error names the opcode byte itself (92_eei_decisions.md D1; log 1). -/
def decodeWith (m : Byte → Option Byte) : List Byte → Except DecodeError (Instr × List Byte)
  | [] => .error .noBytes
  | op :: rest =>
    match m op with
    | none => .error (.unknownOpcode op)
    | some row => (decode (row :: rest)).mapError (DecodeError.withOpcode op)

/-- The opcode byte of an instruction (30_encoding.md R85). -/
def Instr.opcode : Instr → Byte
  | .add _ _ => 0xA0
  | .sub _ _ => 0xA1
  | .mul _ _ => 0xA2
  | .div _ _ => 0xA3
  | .mod _ _ => 0xA4
  | .inc _ => 0x65
  | .dec _ => 0x66
  | .cmp _ _ => 0xA7
  | .and _ _ => 0xA8
  | .not _ => 0x69
  | .or _ _ => 0xAA
  | .xor _ _ => 0xAB
  | .shl _ _ => 0xAC
  | .shr _ _ => 0xAD
  | .call _ => 0x50
  | .ret => 0x11
  | .iret => 0x13
  | .jmp _ => 0x54
  | .jeq _ => 0x55
  | .jne _ => 0x56
  | .jgt _ => 0x57
  | .jlt _ => 0x58
  | .jle _ => 0x59
  | .jge _ => 0x5A
  | .hlt => 0x01
  | .ldi _ _ => 0x82
  | .ld _ _ => 0x83
  | .st _ _ => 0x84
  | .push _ => 0x45
  | .pop _ => 0x46
  | .prn _ => 0x47
  | .pra _ => 0x48

/-- The operand bytes of an instruction in fetch order (30_encoding.md R82, 20_memory.md R66). -/
def Instr.operands : Instr → List Byte
  | .add a b => [a, b]
  | .sub a b => [a, b]
  | .mul a b => [a, b]
  | .div a b => [a, b]
  | .mod a b => [a, b]
  | .inc a => [a]
  | .dec a => [a]
  | .cmp a b => [a, b]
  | .and a b => [a, b]
  | .not a => [a]
  | .or a b => [a, b]
  | .xor a b => [a, b]
  | .shl a b => [a, b]
  | .shr a b => [a, b]
  | .call a => [a]
  | .ret => []
  | .iret => []
  | .jmp a => [a]
  | .jeq a => [a]
  | .jne a => [a]
  | .jgt a => [a]
  | .jlt a => [a]
  | .jle a => [a]
  | .jge a => [a]
  | .hlt => []
  | .ldi a imm => [a, imm]
  | .ld a b => [a, b]
  | .st a b => [a, b]
  | .push a => [a]
  | .pop a => [a]
  | .prn a => [a]
  | .pra a => [a]

/-- The bytes of an instruction in ascending address order: opcode, then operands (30_encoding.md R82,
20_memory.md R66). -/
def encode (i : Instr) : List Byte := i.opcode :: i.operands

/-- The three bytes of an instruction numbered as spec/opcode_table.json numbers its bits: the first byte in bits 7:0.
Bits at and above `nbits` are 0. -/
def tableWordBytes (nbits w : Nat) : List Byte :=
  let v := w % 2 ^ nbits
  [BitVec.ofNat 8 v, BitVec.ofNat 8 (v / 2 ^ 8), BitVec.ofNat 8 (v / 2 ^ 16)]

/-- The instruction the decoder reads from a table word. -/
def decodeTableWord (nbits w : Nat) : Option Instr :=
  match decode (tableWordBytes nbits w) with
  | .ok (i, _) => some i
  | .error _ => none

end Sys2Proof
end

