-- ==== Sys2Proof/Config.lean ====
section
/-! DEFINITION. What an implementation fixes (00_scope.md R9) and the free values: constants without a body for what the
spec leaves open, so that no proof can see a value of one. -/

namespace Sys2Proof.Config

/-- MEM_SIZE: 256 bytes, addresses 0 to 255 (00_scope.md R9, 10_state.md R49). -/
abbrev memSize : Nat := 256

/-- SP_INIT (00_scope.md R9, 10_state.md R35). -/
def spInit : Byte := 0xF4

/-- VEC_TIMER, the vector address of line 0 (60_exceptions.md R217). -/
def vecTimer : Byte := 0xF8

/-- VEC_KBD, the vector address of line 1 (60_exceptions.md R217). -/
def vecKbd : Byte := 0xF9

/-- IRET_IM_VALUE, what IRET leaves in IM (43_interrupt_return.md R190, 90_conflicts.md C2). -/
def iretImValue : Byte := 1

/-- The parameters of 00_scope.md R9 that the cycle reads. `RESET_R0_R4` is the argument of `State.resetWith` (log 5), and `TIMER_PERIOD` is used by no rule. -/
structure Params where
  /-- OPCODE_MAP: the byte of the table of 30_encoding.md R85 whose instruction an opcode byte stands for. `none`, and a
  byte outside the table, make the opcode byte unknown. The map must agree with the fields of R81, that is keep bits 7 to 4
  (92_eei_decisions.md D1; log 1). -/
  opcodeMap : Byte → Option Byte
  /-- NOP_AT_00: whether the byte 0x00, where the opcode map leaves it unknown, executes as a one-byte no-op
  (30_encoding.md R87; log 2). That a map which gives 0x00 a row wins over it is a DESIGN CHOICE (log 27). -/
  nopAt00 : Bool
  /-- VEC_HIGH: vector addresses of the lines 2 to 7; it is not consulted for lines 0 and 1
  (60_exceptions.md R217; log 11). -/
  vecHigh : Line → Option Byte

/-- The defaults of 00_scope.md R9: the table of 30_encoding.md R85 itself, 0x00 is unknown, and lines 2 to 7 have no
vector. -/
def Params.standard : Params := { opcodeMap := some, nopAt00 := false, vecHigh := fun _ => none }

/-- FREE VALUE: the input `tick` in the cycle with this number, beyond the schedule the state holds
(60_exceptions.md R213, 93_implementation_defined.md U10; log 7). -/
opaque tick : Nat → Bool

/-- FREE VALUE: the input `kbd_req` in the cycle with this number, beyond the schedule the state holds
(60_exceptions.md R212, 93_implementation_defined.md U11; log 7). -/
opaque kbdReq : Nat → Bool

/-- FREE VALUE: a register after a fault in the cycle with this number (60_exceptions.md R200; log 4). -/
opaque faultReg : Nat → RegIx → Byte

/-- FREE VALUE: FL after a fault (60_exceptions.md R200; log 4). -/
opaque faultFl : Nat → Byte

/-- FREE VALUE: the program counter after a fault, within its range 0 to 256 (60_exceptions.md R200, 10_state.md R36;
log 4). -/
opaque faultPc : Nat → Fin 257

/-- FREE VALUE: the byte of memory at an address after a fault (60_exceptions.md R200; log 4). -/
opaque faultMem : Nat → Nat → Byte

end Sys2Proof.Config
end

