-- ==== Sys2Proof/Machine/State.lean ====
section
/-! DEFINITION. The state of the CORE block (10_state.md), as plain data, the reasons a step can stop, and the state
after reset (70_reset_and_hazards.md R240). -/

namespace Sys2Proof.Machine

/-- The kinds of fault of 60_exceptions.md R201 to R206. -/
inductive FaultKind where
  | addressOutOfRange
  | unknownInstruction
  | unsupportedOperation
  | divisionByZero
  | invalidRegister
  | unmappedVector
  deriving DecidableEq, Repr

/-- What a rule that raises a fault supplies: the kind and, where the kind has one, the offending address (-1 for a push
below 0) or the interrupt line (60_exceptions.md R207). -/
structure FaultInfo where
  kind : FaultKind
  addr : Option Int := none
  line : Option Line := none
  deriving DecidableEq, Repr

/-- The fault record (60_exceptions.md R207); its `code` is `FaultKind.code` of its kind. -/
structure FaultRecord where
  kind : FaultKind
  pc : PcWord
  opcode : Option Byte
  addr : Option Int
  line : Option Line
  deriving DecidableEq, Repr

/-- The run state (10_state.md R50). The fault record exists only in Faulted (R53), so it stands inside it. -/
inductive RunState where
  | running
  | halted
  | faulted (r : FaultRecord)
  deriving DecidableEq, Repr

/-- An event on the output port (00_scope.md R8, 10_state.md R52). -/
inductive OutEvent where
  | prn (v : Byte)
  | pra (v : Byte)
  deriving DecidableEq, Repr

/-- The two inputs of one cycle (00_scope.md R8). -/
structure CycleInput where
  tick : Bool
  kbdReq : Bool
  deriving DecidableEq, Repr

/-- Memory: the (address, byte) pairs of the bytes that are not 0, addresses strictly rising (10_state.md R49). -/
abbrev Memory := List Host.Cell

/-- The state of the machine (10_state.md, "The complete state is"), and the model's own two fields `inputs` and
`cycle` (log 7). -/
structure State where
  /-- R0 to R7; R5 is IM, R6 is IS, R7 is SP (10_state.md R30 to R32). -/
  regs : Vector Byte 8
  /-- The program counter, 0 to 256 (10_state.md R36). -/
  pc : PcWord
  /-- The flags register FL (10_state.md R40). -/
  fl : Byte
  /-- The 256 bytes of memory (10_state.md R49). -/
  mem : Memory
  /-- Running, Halted, or Faulted with its record (10_state.md R50, R53). -/
  run : RunState
  /-- The timer's sticky expiry bit (10_state.md R51). -/
  timerDue : Bool
  /-- The events emitted so far, oldest first (10_state.md R52). -/
  trace : List OutEvent
  /-- The model's own: the inputs of the coming cycles, first the next one; beyond its end the inputs are free values
  (log 7). -/
  inputs : List CycleInput
  /-- The model's own: the number of cycles begun, to which the free values are applied (log 7). -/
  cycle : Nat
  deriving DecidableEq, Repr

/-- The reasons a step answers with a fault. -/
inductive Fault where
  /-- Raised by `step` alone, on a block that is ALREADY Faulted: no cycle executes and the status output shows the record
  (30_encoding.md R96, 70_reset_and_hazards.md R249). No meaning of an instruction answers it: the cycle that raises a
  fault answers the Faulted state as its next state (log 3). Safe. -/
  | faulted (r : FaultRecord)
  deriving DecidableEq, Repr

/-- The reasons a step answers with a refusal. -/
inductive Refusal where
  /-- Raised by an arm of `exec` for an instruction without a meaning yet; every instruction has one, so none raises it.
  Safe. -/
  | notModelled (mnemonic : String)
  deriving DecidableEq, Repr

/-- The state after reset for given draws of R0 to R4 (70_reset_and_hazards.md R240; RESET_R0_R4 of 00_scope.md R9), with
no image preloaded. -/
def State.resetWith (r0 r1 r2 r3 r4 : Byte) : State where
  regs := #v[r0, r1, r2, r3, r4, 0, 0, Config.spInit]
  pc := 0
  fl := 0
  mem := []
  run := .running
  timerDue := false
  trace := []
  inputs := []
  cycle := 0

/-- The state after reset. DESIGN CHOICE: the draws of R0 to R4 are 0 here (10_state.md R35 leaves them free; log 5);
unsafe. -/
def State.reset : State := State.resetWith 0 0 0 0 0

end Sys2Proof.Machine
end

