-- ==== Sys2Proof/Machine/Flags.lean ====
section
/-! DEFINITION. The flags register FL: its bits (10_state.md R40), the value CMP writes (40_alu.md R124) and the
conditions of the six conditional jumps (41_control_flow.md R146). -/

namespace Sys2Proof.Machine

/-- FL.E, bit 0 (10_state.md R40). -/
def flagE (fl : Byte) : Bool := fl.getLsbD 0

/-- FL.G, bit 1 (10_state.md R40). -/
def flagG (fl : Byte) : Bool := fl.getLsbD 1

/-- FL.L, bit 2 (10_state.md R40). -/
def flagL (fl : Byte) : Bool := fl.getLsbD 2

/-- The whole FL byte CMP writes, from an unsigned comparison (40_alu.md R124; log 15). -/
def compareFlags (x y : Byte) : Byte := if x.toNat = y.toNat then 0x01 else if x.toNat > y.toNat then 0x02 else 0x04

/-- JEQ's condition (41_control_flow.md R146; log 12). -/
def condEq (fl : Byte) : Bool := flagE fl

/-- JNE's condition (41_control_flow.md R146; log 12). -/
def condNe (fl : Byte) : Bool := !flagE fl

/-- JGT's condition (41_control_flow.md R146; log 12). -/
def condGt (fl : Byte) : Bool := flagG fl

/-- JGE's condition reads the set bits, not the absence of L (41_control_flow.md R146, R150; log 12). -/
def condGe (fl : Byte) : Bool := flagG fl || flagE fl

/-- JLT's condition (41_control_flow.md R146; log 12). -/
def condLt (fl : Byte) : Bool := flagL fl

/-- JLE's condition (41_control_flow.md R146, R152; log 12). -/
def condLe (fl : Byte) : Bool := flagL fl || flagE fl

end Sys2Proof.Machine
end

