-- ==== Sys2Proof/Machine/Ops.lean ====
section
/-! DEFINITION. The named operations over registers, memory and the stack, raising a fault, and taking and leaving an
interrupt. An operation that a rule lets raise a fault answers `Except FaultInfo`. -/

namespace Sys2Proof.Machine

/-- The index of SP (10_state.md R31). -/
abbrev SP : RegIx := 7

/-- The index of IM (10_state.md R32). -/
abbrev IM : RegIx := 5

/-- The index of IS (10_state.md R32). -/
abbrev IS : RegIx := 6

/-- The code number of a fault kind (60_exceptions.md R201 to R206). -/
def FaultKind.code : FaultKind → Nat
  | .addressOutOfRange => 1
  | .unknownInstruction => 2
  | .unsupportedOperation => 3
  | .divisionByZero => 4
  | .invalidRegister => 5
  | .unmappedVector => 6

/-- The code field of the fault record (60_exceptions.md R207). -/
def FaultRecord.code (r : FaultRecord) : Nat := r.kind.code

/-! ### Memory -/

/-- What an address that memory does not list reads as: reset zero-fills memory (10_state.md R49). -/
def Memory.unlisted : Byte := 0

/-- The byte at an address. -/
def Memory.read : Memory → Nat → Byte
  | [], _ => Memory.unlisted
  | (k, v) :: m, a => if k = a then v else Memory.read m a

/-- Set the byte at an address, keeping the canonical form. -/
def Memory.write : Memory → Nat → Byte → Memory
  | [], a, v => if v = Memory.unlisted then [] else [(a, v)]
  | (k, w) :: m, a, v =>
    if a < k then (if v = Memory.unlisted then (k, w) :: m else (a, v) :: (k, w) :: m)
    else if a = k then (if v = Memory.unlisted then m else (a, v) :: m)
    else (k, w) :: Memory.write m a v

/-- The canonical form from an address on: addresses strictly rising, inside the address space, no listed byte equal to
what an unlisted address reads as. -/
def Memory.wfFrom : Nat → Memory → Bool
  | _, [] => true
  | lo, (k, v) :: m => decide (lo ≤ k) && decide (k < Config.memSize) && decide (v ≠ Memory.unlisted) && Memory.wfFrom (k + 1) m

/-- The canonical form of memory. -/
def Memory.wf (m : Memory) : Bool := Memory.wfFrom 0 m

/-- Write a list of bytes at successive addresses. -/
def Memory.writeBytes : Memory → Nat → List Byte → Memory
  | m, _, [] => m
  | m, a, v :: vs => Memory.writeBytes (m.write a v) (a + 1) vs

/-- The memory whose byte at each address below MEM_SIZE is given by a function. -/
def Memory.ofFn (f : Nat → Byte) : Memory := Memory.writeBytes [] 0 ((List.range Config.memSize).map f)

/-! ### Fields of the state -/

/-- Read register `r`; none is hardwired (00_scope.md R12, 10_state.md R33). -/
def State.reg (s : State) (r : RegIx) : Byte := s.regs[r]

/-- Write register `r`; none is hardwired (00_scope.md R12, 10_state.md R33). -/
def State.setReg (s : State) (r : RegIx) (v : Byte) : State := { s with regs := s.regs.set r v }

/-- Write the program counter (00_scope.md R12). -/
def State.setPc (s : State) (v : PcWord) : State := { s with pc := v }

/-- Write FL (00_scope.md R12). -/
def State.setFl (s : State) (v : Byte) : State := { s with fl := v }

/-- Replace memory. -/
def State.setMem (s : State) (m : Memory) : State := { s with mem := m }

/-- Write the run state (10_state.md R50). -/
def State.setRun (s : State) (r : RunState) : State := { s with run := r }

/-- Write the timer's expiry bit (10_state.md R51). -/
def State.setTimerDue (s : State) (b : Bool) : State := { s with timerDue := b }

/-- `Emit`: append an event to the output trace (00_scope.md R12, 10_state.md R52). -/
def State.emit (s : State) (e : OutEvent) : State := { s with trace := s.trace ++ [e] }

/-- A byte as a value of the program counter. -/
def toPc (b : Byte) : PcWord := b.setWidth 9

/-! ### Memory access -/

/-- `MemRead(a, 1)` (20_memory.md R61). -/
def memRead (s : State) (a : Nat) : Except FaultInfo Byte :=
  if a < Config.memSize then .ok (s.mem.read a) else .error { kind := .addressOutOfRange, addr := some a }

/-- `MemWrite(a, 1, v)` (20_memory.md R62). -/
def memWrite (s : State) (a : Nat) (v : Byte) : Except FaultInfo State :=
  if a < Config.memSize then .ok (s.setMem (s.mem.write a v)) else .error { kind := .addressOutOfRange, addr := some a }

/-- Image preload: the host writes bytes at successive addresses from 0; an image that does not fit is no move of the
host (00_scope.md R8, 20_memory.md R74; log 17). -/
def State.preload (s : State) (image : List Byte) : Option State :=
  if image.length ≤ Config.memSize then some (s.setMem (s.mem.writeBytes 0 image)) else none

/-! ### The stack -/

/-- SP decremented for a push, or the fault of a push with SP = 0 (41_control_flow.md R140). -/
def decSp (s : State) : Except FaultInfo State :=
  if s.reg SP = 0 then .error { kind := .addressOutOfRange, addr := some (-1) } else .ok (s.setReg SP (s.reg SP - 1))

/-- SP incremented for a pop, or the fault of a pop that would carry SP to 256 (41_control_flow.md R140). -/
def incSp (s : State) : Except FaultInfo State :=
  if s.reg SP = 255 then .error { kind := .addressOutOfRange, addr := some 256 } else .ok (s.setReg SP (s.reg SP + 1))

/-- `PushByte` (41_control_flow.md R140). -/
def pushByte (v : Byte) (s : State) : Except FaultInfo State := do
  let s1 ← decSp s
  memWrite s1 (s1.reg SP).toNat v

/-- `PopByte` (41_control_flow.md R140). -/
def popByte (s : State) : Except FaultInfo (Byte × State) := do
  let v ← memRead s (s.reg SP).toNat
  let s1 ← incSp s
  pure (v, s1)

/-- Push registers in the order listed. -/
def pushRegs : List RegIx → State → Except FaultInfo State
  | [], s => .ok s
  | r :: rs, s => do
    let s1 ← pushByte (s.reg r) s
    pushRegs rs s1

/-- Pop into registers in the order listed. -/
def popRegs : List RegIx → State → Except FaultInfo State
  | [], s => .ok s
  | r :: rs, s => do
    let (v, s1) ← popByte s
    popRegs rs (s1.setReg r v)

/-! ### Raising a fault -/

/-- `raise Fault`: the run state becomes Faulted with the record, whose `pc` is the present `pc` (`pc0` while an
instruction has not written it). Registers, FL, `pc` and memory are unspecified afterwards: free values (60_exceptions.md
R200, R207; log 4). The trace is kept (70_reset_and_hazards.md R249), and `timerDue` stays (10_state.md R51). -/
def raiseFault (s : State) (opcode : Option Byte) (f : FaultInfo) : State :=
  { s with
    regs := Vector.ofFn (Config.faultReg s.cycle)
    pc := BitVec.ofNat 9 (Config.faultPc s.cycle).val
    fl := Config.faultFl s.cycle
    mem := Memory.ofFn (Config.faultMem s.cycle)
    run := .faulted { kind := f.kind, pc := s.pc, opcode := opcode, addr := f.addr, line := f.line } }

/-- The answer of an instruction whose effect either completes or raises a fault; either way there is a next state
(60_exceptions.md R200; log 3). -/
def conclude (s : State) (opcode : Byte) (r : Except FaultInfo State) : Host.Outcome State Fault Refusal :=
  match r with
  | .ok t => .next t
  | .error f => .next (raiseFault s (some opcode) f)

/-! ### Interrupts -/

/-- The registers a dispatch pushes, in its order (60_exceptions.md R216). -/
def savedRegs : List RegIx := [0, 1, 2, 3, 4, 5, 6]

/-- `VectorAddress(n)` (60_exceptions.md R217). -/
def vectorAddress (p : Config.Params) (n : Line) : Except FaultInfo Byte :=
  if n = 0 then .ok Config.vecTimer
  else if n = 1 then .ok Config.vecKbd
  else
    match p.vecHigh n with
    | some v => .ok v
    | none => .error { kind := .unmappedVector, line := some n }

/-- The lowest set bit of a byte (60_exceptions.md R215). -/
def lowestLine (b : Byte) : Option Line := ([0, 1, 2, 3, 4, 5, 6, 7] : List Line).find? fun n => b.getLsbD n

/-- The line the poll dispatches: none while Disabled (IM = 0), else the lowest pending enabled one
(60_exceptions.md R211, R214, R215). -/
def selectLine (s : State) : Option Line := if s.reg IM = 0 then none else lowestLine (s.reg IM &&& s.reg IS)

/-- IM cleared and the dispatched bit of IS cleared (60_exceptions.md R216). -/
def acknowledge (n : Line) (s : State) : State :=
  let s1 := s.setReg IM 0
  s1.setReg IS (s1.reg IS &&& ~~~((1 : Byte) <<< n.val))

/-- Save the context, `pc` then FL then R0 to R6, and enter through the vector byte (60_exceptions.md R216). -/
def enterHandler (vec : Byte) (s : State) : Except FaultInfo State :=
  if s.pc.toNat > 255 then .error { kind := .addressOutOfRange, addr := some s.pc.toNat }
  else do
    let s1 ← pushByte (s.pc.setWidth 8) s
    let s2 ← pushByte s1.fl s1
    let s3 ← pushRegs savedRegs s2
    let h ← memRead s3 vec.toNat
    pure (s3.setPc (toPc h))

/-- `Dispatch(n)`: taking an interrupt (60_exceptions.md R216). -/
def dispatch (p : Config.Params) (n : Line) (s : State) : Except FaultInfo State := do
  let vec ← vectorAddress p n
  enterHandler vec (acknowledge n s)

/-- Returning from an interrupt: pop R6 down to R0, FL and `pc`, then IM becomes IRET_IM_VALUE and the timer's reference
point is reset (43_interrupt_return.md R190). -/
def interruptReturn (s : State) : Except FaultInfo State := do
  let s1 ← popRegs savedRegs.reverse s
  let (f, s2) ← popByte s1
  let (t, s3) ← popByte (s2.setFl f)
  pure (((s3.setPc (toPc t)).setReg IM Config.iretImValue).setTimerDue false)

end Sys2Proof.Machine
end

