-- ==== Sys2Proof/Machine/Operands.lean ====
section
/-! DEFINITION. The operand forms (30_encoding.md R82, R83) and the shared shapes of instructions over them. The
immediate form is the operand byte itself (R84) and needs no operation. -/

namespace Sys2Proof.Machine

/-- `reg(o)`: the register an operand byte names, or InvalidRegister (30_encoding.md R83). -/
def reg (o : Byte) : Except FaultInfo RegIx :=
  if h : o.toNat < 8 then .ok ⟨o.toNat, h⟩ else .error { kind := .invalidRegister }

/-- The operand byte that names a register. -/
def regByte (r : RegIx) : Byte := BitVec.ofNat 8 r.val

/-- `x[A] <- f(x[A])` (40_alu.md R110). -/
def unaryOp (f : Byte → Byte) (o : Byte) (s : State) : Except FaultInfo State := do
  let a ← reg o
  pure (s.setReg a (f (s.reg a)))

/-- `x[A] <- f(x[A], x[B])`, both operands checked, `A` first, and read before the write (40_alu.md R110). -/
def binaryOp (f : Byte → Byte → Byte) (o1 o2 : Byte) (s : State) : Except FaultInfo State := do
  let a ← reg o1
  let b ← reg o2
  pure (s.setReg a (f (s.reg a) (s.reg b)))

/-- As `binaryOp`, but DivisionByZero when `x[B]` is 0 (40_alu.md R114, R115). -/
def divisionOp (f : Byte → Byte → Byte) (o1 o2 : Byte) (s : State) : Except FaultInfo State := do
  let a ← reg o1
  let b ← reg o2
  if s.reg b = 0 then .error { kind := .divisionByZero } else pure (s.setReg a (f (s.reg a) (s.reg b)))

/-- `Jcc(cond)`: the operand is checked whether or not the jump is taken (41_control_flow.md R146). -/
def condJump (taken : Bool) (o : Byte) (s : State) : Except FaultInfo State := do
  let r ← reg o
  if taken then pure (s.setPc (toPc (s.reg r))) else pure (s.setPc (s.pc + 2))

/-- `Emit` of `x[A]` (42_data_and_io.md R173, R174). -/
def emitReg (ev : Byte → OutEvent) (o : Byte) (s : State) : Except FaultInfo State := do
  let a ← reg o
  pure (s.emit (ev (s.reg a)))

end Sys2Proof.Machine
end

