-- ==== Sys2Proof/Machine/Alu.lean ====
section
/-! DEFINITION. The meanings of the 14 ALU instructions (40_alu.md). None advances `pc`: the cycle does (30_encoding.md
R93). Byte arithmetic is modulo 256 (R125). -/

namespace Sys2Proof.Machine

/-- ADD (40_alu.md R111). -/
def execAdd (a b : Byte) (s : State) : Host.Outcome State Fault Refusal :=
  conclude s 0xA0 (binaryOp (fun x y => x + y) a b s)

/-- SUB (40_alu.md R112). -/
def execSub (a b : Byte) (s : State) : Host.Outcome State Fault Refusal :=
  conclude s 0xA1 (binaryOp (fun x y => x - y) a b s)

/-- MUL, the low byte of the product (40_alu.md R113). -/
def execMul (a b : Byte) (s : State) : Host.Outcome State Fault Refusal :=
  conclude s 0xA2 (binaryOp (fun x y => x * y) a b s)

/-- DIV, unsigned quotient (40_alu.md R114). -/
def execDiv (a b : Byte) (s : State) : Host.Outcome State Fault Refusal :=
  conclude s 0xA3 (divisionOp (fun x y => x / y) a b s)

/-- MOD, unsigned remainder (40_alu.md R115). -/
def execMod (a b : Byte) (s : State) : Host.Outcome State Fault Refusal :=
  conclude s 0xA4 (divisionOp (fun x y => x % y) a b s)

/-- INC (40_alu.md R117). -/
def execInc (a : Byte) (s : State) : Host.Outcome State Fault Refusal :=
  conclude s 0x65 (unaryOp (fun x => x + 1) a s)

/-- DEC (40_alu.md R116). -/
def execDec (a : Byte) (s : State) : Host.Outcome State Fault Refusal :=
  conclude s 0x66 (unaryOp (fun x => x - 1) a s)

/-- CMP writes FL and no register (40_alu.md R124). -/
def execCmp (a b : Byte) (s : State) : Host.Outcome State Fault Refusal :=
  conclude s 0xA7 do
    let ra ← reg a
    let rb ← reg b
    pure (s.setFl (compareFlags (s.reg ra) (s.reg rb)))

/-- AND (40_alu.md R118). -/
def execAnd (a b : Byte) (s : State) : Host.Outcome State Fault Refusal :=
  conclude s 0xA8 (binaryOp (fun x y => x &&& y) a b s)

/-- NOT (40_alu.md R123). -/
def execNot (a : Byte) (s : State) : Host.Outcome State Fault Refusal :=
  conclude s 0x69 (unaryOp (fun x => ~~~x) a s)

/-- OR (40_alu.md R119). -/
def execOr (a b : Byte) (s : State) : Host.Outcome State Fault Refusal :=
  conclude s 0xAA (binaryOp (fun x y => x ||| y) a b s)

/-- XOR (40_alu.md R120). -/
def execXor (a b : Byte) (s : State) : Host.Outcome State Fault Refusal :=
  conclude s 0xAB (binaryOp (fun x y => x ^^^ y) a b s)

/-- SHL by the whole byte `x[B]` (40_alu.md R122; log 24). -/
def execShl (a b : Byte) (s : State) : Host.Outcome State Fault Refusal :=
  conclude s 0xAC (binaryOp (fun x y => x <<< y.toNat) a b s)

/-- SHR, logical, by the whole byte `x[B]` (40_alu.md R121; log 24). -/
def execShr (a b : Byte) (s : State) : Host.Outcome State Fault Refusal :=
  conclude s 0xAD (binaryOp (fun x y => x >>> y.toNat) a b s)

end Sys2Proof.Machine
end

