-- ==== Sys2Proof/Machine/Control.lean ====
section
/-! DEFINITION. The meanings of the stack and control-flow instructions (41_control_flow.md). The order of the statements
decides the cases where an operand is R7 (00_scope.md R13; log 13). -/

namespace Sys2Proof.Machine

/-- PUSH stores `x[r]` as read after the decrement (41_control_flow.md R141). -/
def execPush (a : Byte) (s : State) : Host.Outcome State Fault Refusal :=
  conclude s 0x45 do
    let r ← reg a
    let s1 ← decSp s
    memWrite s1 (s1.reg SP).toNat (s1.reg r)

/-- POP increments SP as it stands after the register write (41_control_flow.md R142). -/
def execPop (a : Byte) (s : State) : Host.Outcome State Fault Refusal :=
  conclude s 0x46 do
    let r ← reg a
    let v ← memRead s (s.reg SP).toNat
    incSp (s.setReg r v)

/-- CALL pushes `pc0 + 2`, then jumps to `x[r]` as read after the push; a return address of 256 is no byte and faults
(41_control_flow.md R143). -/
def execCall (a : Byte) (s : State) : Host.Outcome State Fault Refusal :=
  conclude s 0x50 do
    let r ← reg a
    if s.pc.toNat + 2 > 255 then
      .error { kind := .addressOutOfRange, addr := some (s.pc.toNat + 2 : Nat) }
    else do
      let s1 ← pushByte (BitVec.ofNat 8 (s.pc.toNat + 2)) s
      pure (s1.setPc (toPc (s1.reg r)))

/-- RET (41_control_flow.md R144). -/
def execRet (s : State) : Host.Outcome State Fault Refusal :=
  conclude s 0x11 do
    let (v, s1) ← popByte s
    pure (s1.setPc (toPc v))

/-- JMP (41_control_flow.md R145). -/
def execJmp (a : Byte) (s : State) : Host.Outcome State Fault Refusal :=
  conclude s 0x54 (condJump true a s)

/-- JEQ (41_control_flow.md R147). -/
def execJeq (a : Byte) (s : State) : Host.Outcome State Fault Refusal :=
  conclude s 0x55 (condJump (condEq s.fl) a s)

/-- JNE (41_control_flow.md R148). -/
def execJne (a : Byte) (s : State) : Host.Outcome State Fault Refusal :=
  conclude s 0x56 (condJump (condNe s.fl) a s)

/-- JGT (41_control_flow.md R149). -/
def execJgt (a : Byte) (s : State) : Host.Outcome State Fault Refusal :=
  conclude s 0x57 (condJump (condGt s.fl) a s)

/-- JLT (41_control_flow.md R151). -/
def execJlt (a : Byte) (s : State) : Host.Outcome State Fault Refusal :=
  conclude s 0x58 (condJump (condLt s.fl) a s)

/-- JLE (41_control_flow.md R152). -/
def execJle (a : Byte) (s : State) : Host.Outcome State Fault Refusal :=
  conclude s 0x59 (condJump (condLe s.fl) a s)

/-- JGE (41_control_flow.md R150). -/
def execJge (a : Byte) (s : State) : Host.Outcome State Fault Refusal :=
  conclude s 0x5A (condJump (condGe s.fl) a s)

end Sys2Proof.Machine
end

