-- ==== Sys2Proof/Machine/DataIo.lean ====
section
/-! DEFINITION. The meanings of load, store, immediate, output, halt (42_data_and_io.md) and interrupt return
(43_interrupt_return.md). -/

namespace Sys2Proof.Machine

/-- HLT; the cycle then advances `pc` (42_data_and_io.md R175; log 14). -/
def execHlt (s : State) : Host.Outcome State Fault Refusal :=
  conclude s 0x01 (.ok (s.setRun .halted))

/-- LDI (42_data_and_io.md R172). -/
def execLdi (a imm : Byte) (s : State) : Host.Outcome State Fault Refusal :=
  conclude s 0x82 (unaryOp (fun _ => imm) a s)

/-- LD (42_data_and_io.md R171). -/
def execLd (a b : Byte) (s : State) : Host.Outcome State Fault Refusal :=
  conclude s 0x83 do
    let ra ← reg a
    let rb ← reg b
    let v ← memRead s (s.reg rb).toNat
    pure (s.setReg ra v)

/-- ST (42_data_and_io.md R170). -/
def execSt (a b : Byte) (s : State) : Host.Outcome State Fault Refusal :=
  conclude s 0x84 do
    let ra ← reg a
    let rb ← reg b
    memWrite s (s.reg ra).toNat (s.reg rb)

/-- PRN (42_data_and_io.md R173). -/
def execPrn (a : Byte) (s : State) : Host.Outcome State Fault Refusal :=
  conclude s 0x47 (emitReg .prn a s)

/-- PRA (42_data_and_io.md R174). -/
def execPra (a : Byte) (s : State) : Host.Outcome State Fault Refusal :=
  conclude s 0x48 (emitReg .pra a s)

/-- IRET (43_interrupt_return.md R190). -/
def execIret (s : State) : Host.Outcome State Fault Refusal :=
  conclude s 0x13 (interruptReturn s)

end Sys2Proof.Machine
end

