-- ==== Sys2Proof/Machine/Cycle.lean ====
section
/-! DEFINITION. The execution cycle: the interrupt poll, the fetch, the execution and the `pc` advance (30_encoding.md
R93, 60_exceptions.md R211), and how the host's check places an instruction. -/

namespace Sys2Proof.Machine

/-- The inputs of the coming cycle: the head of the schedule the state holds, else free values (60_exceptions.md R212,
R213; log 7). -/
def State.nextInput (s : State) : CycleInput :=
  match s.inputs with
  | i :: _ => i
  | [] => { tick := Config.tick s.cycle, kbdReq := Config.kbdReq s.cycle }

/-- The bits of IS that step 1 of the poll sets: bit 0 while the timer is due, bit 1 on a keyboard request
(60_exceptions.md R211). -/
def requestBits (due kbd : Bool) : Byte := (if due then 0x01 else 0) ||| (if kbd then 0x02 else 0)

/-- Step 1 of the poll, in every Running cycle whatever IM holds (60_exceptions.md R211, 90_conflicts.md C4). It also
moves the model's own fields on by one cycle. -/
def pollRequests (s : State) : State :=
  let i := s.nextInput
  let due := s.timerDue || i.tick
  { s with
    timerDue := due
    regs := s.regs.set IS (s.reg IS ||| requestBits due i.kbdReq)
    inputs := s.inputs.tail
    cycle := s.cycle + 1 }

/-- Step 2 of the poll: dispatch at most one line (60_exceptions.md R211, R218). -/
def pollDispatch (p : Config.Params) (s : State) : Except FaultInfo State :=
  match selectLine s with
  | none => .ok s
  | some n => dispatch p n s

/-- The bytes of memory from `pc` on, at most three, none beyond address 255 (30_encoding.md R93; log 23). -/
def fetchBytes (s : State) : List Byte :=
  (([0, 1, 2].map fun k => s.pc.toNat + k).filter fun a => decide (a < Config.memSize)).map s.mem.read

/-- The end of a cycle: after an instruction that did not fault and whose opcode has bit 4 equal to 0, `pc` becomes
`pc0 + 1 + n` (30_encoding.md R93, R95, 10_state.md R38); after a fault the record names the opcode byte fetched, `op`
(60_exceptions.md R207), which with the default opcode map is the one it names already. -/
def advance (i : Instr) (op : Byte) (pc0 : PcWord) (t : State) : State :=
  match t.run with
  | .faulted r => t.setRun (.faulted { r with opcode := some op })
  | _ => if opSetsPc i.opcode then t else t.setPc (pc0 + 1 + BitVec.ofNat 9 (opOperandCount i.opcode))

/-- Execute the instruction fetched at the present state and end the cycle (30_encoding.md R93). -/
def executeInstr (i : Instr) (s : State) : Host.Outcome State Fault Refusal :=
  match exec i s with
  | .next t => .next (advance i (s.mem.read s.pc.toNat) s.pc t)
  | .fault r => .fault r
  | .refused r => .refused r

/-- Fetch, decode and execute (30_encoding.md R93); the fetch's own faults come in the order of 60_exceptions.md R208.
DESIGN CHOICE (log 27): the opcode map is consulted before NOP_AT_00, so that a map that itself gives 0x00 a row wins and
0x00 is a no-op only where the map leaves it unknown (00_scope.md R9, R87 do not say which parameter wins). -/
def fetchExecute (p : Config.Params) (s : State) : Host.Outcome State Fault Refusal :=
  match decodeWith p.opcodeMap (fetchBytes s) with
  | .ok (i, _) => executeInstr i s
  | .error .noBytes => .next (raiseFault s none { kind := .addressOutOfRange, addr := some s.pc.toNat })
  | .error (.unknownOpcode op) =>
    if p.nopAt00 && op == 0 then .next (s.setPc (s.pc + 1))
    else .next (raiseFault s (some op) { kind := .unknownInstruction })
  | .error (.missingOperand op k) =>
    .next (raiseFault s (some op) { kind := .addressOutOfRange, addr := some (s.pc.toNat + k : Nat) })

/-- One cycle of a Running block (30_encoding.md R93). A fault of the dispatch has no opcode (60_exceptions.md R207). -/
def runCycle (p : Config.Params) (s : State) : Host.Outcome State Fault Refusal :=
  let s1 := pollRequests s
  match pollDispatch p s1 with
  | .ok s2 => fetchExecute p s2
  | .error f => .next (raiseFault s1 none f)

/-- Place the three bytes of a table word where the next cycle fetches, and set all that this takes: the block Running,
`pc` where three bytes fit (kept if they do, else 0), and IM cleared if the poll would dispatch a line (log 17). -/
def placeWord (s : State) (nbits w : Nat) : State :=
  let pc := if s.pc.toNat + 3 ≤ Config.memSize then s.pc else 0
  let s1 := ((s.setRun .running).setPc pc).setMem (s.mem.writeBytes pc.toNat (tableWordBytes nbits w))
  match selectLine (pollRequests s1) with
  | none => s1
  | some _ => s1.setReg IM 0

end Sys2Proof.Machine
end

