-- ==== Sys2Proof/Machine/Step.lean ====
section
/-! DEFINITION. One step of the block, and the host's placing of an instruction. -/

namespace Sys2Proof.Machine

/-- One step, for given parameters: a cycle while Running; in Halted and Faulted no cycle executes and nothing changes
(30_encoding.md R93, R96). A Faulted block answers its record as a host fault (log 3). -/
def stepWith (p : Config.Params) (s : State) : Host.Outcome State Fault Refusal :=
  match s.run with
  | .running => runCycle p s
  | .halted => .next s
  | .faulted r => .fault (.faulted r)

/-- One step with the default parameters (00_scope.md R9). -/
def step : State → Host.Outcome State Fault Refusal := stepWith Config.Params.standard

/-- The state with an instruction stored where `step` fetches its next instruction, so that `step` runs exactly it. -/
def State.withFetchWord (s : State) (nbits w : Nat) : State := placeWord s nbits w

end Sys2Proof.Machine
end

