-- ==== Sys2Proof/WellFormed.lean ====
section
/-! DEFINITION. Well-formed instructions: every register operand byte names one of the 8 registers
(30_encoding.md R83). LDI's immediate is any byte (R84). -/

namespace Sys2Proof

/-- The register operand bytes of an instruction, `A` before `B` (30_encoding.md R82). -/
def Instr.regOperands : Instr → List Byte
  | .add a b => [a, b]
  | .sub a b => [a, b]
  | .mul a b => [a, b]
  | .div a b => [a, b]
  | .mod a b => [a, b]
  | .inc a => [a]
  | .dec a => [a]
  | .cmp a b => [a, b]
  | .and a b => [a, b]
  | .not a => [a]
  | .or a b => [a, b]
  | .xor a b => [a, b]
  | .shl a b => [a, b]
  | .shr a b => [a, b]
  | .call a => [a]
  | .ret => []
  | .iret => []
  | .jmp a => [a]
  | .jeq a => [a]
  | .jne a => [a]
  | .jgt a => [a]
  | .jlt a => [a]
  | .jle a => [a]
  | .jge a => [a]
  | .hlt => []
  | .ldi a _ => [a]
  | .ld a b => [a, b]
  | .st a b => [a, b]
  | .push a => [a]
  | .pop a => [a]
  | .prn a => [a]
  | .pra a => [a]

/-- Every register operand byte is at most 7 (30_encoding.md R83). -/
def Instr.wf (i : Instr) : Bool := i.regOperands.all fun o => decide (o.toNat < 8)

end Sys2Proof
end

