-- ==== Sys2Proof/Safety.lean ====
section
/-! DEFINITION. The terms claims use: the invariant of the machine, the fault a state has entered, and runs. -/

namespace Sys2Proof.Machine

/-- What every reachable state meets: memory in canonical form, and `pc` in 0 to 256 (10_state.md R36, R49). -/
def State.Inv (s : State) : Prop := s.mem.wf = true ∧ s.pc.toNat ≤ 256

/-- The state is Running (10_state.md R50). -/
def State.Running (s : State) : Prop := s.run = .running

/-- The state is not Faulted. -/
def State.NotFaulted (s : State) : Prop := ∀ r, s.run ≠ .faulted r

/-- The fault was raised from `s`: the state is Faulted with this record, and what the spec keeps is kept; registers, FL,
`pc` and memory are unspecified and not mentioned (60_exceptions.md R200, R207). -/
def State.FaultedFrom (t s : State) (opcode : Option Byte) (f : FaultInfo) : Prop :=
  t.run = .faulted { kind := f.kind, pc := s.pc, opcode := opcode, addr := f.addr, line := f.line } ∧
  t.trace = s.trace ∧ t.timerDue = s.timerDue

/-- `t` is reached from `s` by some number of steps with these parameters. -/
inductive Reaches (p : Config.Params) (s : State) : State → Prop where
  | refl : Reaches p s s
  | tail {t u : State} : Reaches p s t → stepWith p t = .next u → Reaches p s u

/-- A run from `s` is safe when no state it reaches is Faulted (60_exceptions.md R200). -/
def SafeFrom (p : Config.Params) (s : State) : Prop := ∀ t, Reaches p s t → t.NotFaulted

end Sys2Proof.Machine
end

