-- ==== Sys2Proof/Certificates/Slice0/Obligations.lean ====
section
/-! DEFINITION. The statements for the provers. Each docstring names the rule of spec/ it formalises; where a clause rests on
a decision or inference the spec marks as its own, or on a choice of this model, the docstring names it. Every opcode byte
below is the spec's decision D1, general knowledge (log 1); every clause on an operand byte of 8 or more is its decision D5
(log 8). That a fault is a next state is this model's choice (log 3), that it keeps `timer_due` its reading (log 4); so
wherever `FaultedFrom` stands. -/

namespace Sys2Proof.Claims

open Sys2Proof Sys2Proof.Machine

/-- `z mod 256` as a byte (00_scope.md R11). -/
def mod256 (z : Int) : Byte := BitVec.ofNat 8 (z % 256).toNat

/-- The rule of an instruction of format F2RR: its encoding decodes to it whatever its operand bytes and what follows; on
registers A and B it completes in `eff A B`; an operand byte of 8 or more raises InvalidRegister (30_encoding.md R82, R83).
The byte `op` is the spec's decision D1 (log 1), the fault its decision D5 (log 8); so in each rule below. -/
def BinaryRule (op : Byte) (mk : Byte → Byte → Instr) (eff : RegIx → RegIx → State → State) : Prop :=
  (∀ a b rest, decode (op :: a :: b :: rest) = .ok (mk a b, rest)) ∧
  (∀ ra rb s, exec (mk (regByte ra) (regByte rb)) s = .next (eff ra rb s)) ∧
  (∀ a b s, 8 ≤ a.toNat ∨ 8 ≤ b.toNat →
    ∃ t, exec (mk a b) s = .next t ∧ t.FaultedFrom s (some op) { kind := .invalidRegister })

/-- As `BinaryRule`, for DIV and MOD: `x[B] = 0` raises DivisionByZero (40_alu.md R114, R115). -/
def DivisionRule (op : Byte) (mk : Byte → Byte → Instr) (f : Nat → Nat → Nat) : Prop :=
  (∀ a b rest, decode (op :: a :: b :: rest) = .ok (mk a b, rest)) ∧
  (∀ ra rb s, s.reg rb ≠ 0 →
    exec (mk (regByte ra) (regByte rb)) s =
      .next (s.setReg ra (BitVec.ofNat 8 (f (s.reg ra).toNat (s.reg rb).toNat)))) ∧
  (∀ ra rb s, s.reg rb = 0 →
    ∃ t, exec (mk (regByte ra) (regByte rb)) s = .next t ∧ t.FaultedFrom s (some op) { kind := .divisionByZero }) ∧
  (∀ a b s, 8 ≤ a.toNat ∨ 8 ≤ b.toNat →
    ∃ t, exec (mk a b) s = .next t ∧ t.FaultedFrom s (some op) { kind := .invalidRegister })

/-- The rule of an instruction of format F1R that completes on every register. -/
def UnaryRule (op : Byte) (mk : Byte → Instr) (eff : RegIx → State → State) : Prop :=
  (∀ a rest, decode (op :: a :: rest) = .ok (mk a, rest)) ∧
  (∀ ra s, exec (mk (regByte ra)) s = .next (eff ra s)) ∧
  (∀ a s, 8 ≤ a.toNat → ∃ t, exec (mk a) s = .next t ∧ t.FaultedFrom s (some op) { kind := .invalidRegister })

/-- The rule of a conditional jump with a condition on FL: taken to `x[A]`, else `pc0 + 2`; nothing else changes
(41_control_flow.md R146). -/
def JumpRule (op : Byte) (mk : Byte → Instr) (cond : Byte → Prop) : Prop :=
  (∀ a rest, decode (op :: a :: rest) = .ok (mk a, rest)) ∧
  (∀ ra s, cond s.fl → exec (mk (regByte ra)) s = .next (s.setPc ((s.reg ra).setWidth 9))) ∧
  (∀ ra s, ¬ cond s.fl → exec (mk (regByte ra)) s = .next (s.setPc (s.pc + 2))) ∧
  (∀ a s, 8 ≤ a.toNat → ∃ t, exec (mk a) s = .next t ∧ t.FaultedFrom s (some op) { kind := .invalidRegister })

/-- The 32 opcode bytes of the map (30_encoding.md, the table of section 3). -/
def knownOpcodes : List Byte :=
  [0xA0, 0xA1, 0xA2, 0xA3, 0xA4, 0x65, 0x66, 0xA7, 0xA8, 0x69, 0xAA, 0xAB, 0xAC, 0xAD, 0x50, 0x11, 0x13, 0x54, 0x55,
    0x56, 0x57, 0x58, 0x59, 0x5A, 0x01, 0x82, 0x83, 0x84, 0x45, 0x46, 0x47, 0x48]

/-- The destination operand byte of the 13 ALU instructions but CMP, of LDI and of LD: the instructions that write one
register named by an operand and nothing else (10_state.md R33, POP apart). -/
def plainDest : Instr → Option Byte
  | .add a _ => some a
  | .sub a _ => some a
  | .mul a _ => some a
  | .div a _ => some a
  | .mod a _ => some a
  | .inc a => some a
  | .dec a => some a
  | .and a _ => some a
  | .not a => some a
  | .or a _ => some a
  | .xor a _ => some a
  | .shl a _ => some a
  | .shr a _ => some a
  | .ldi a _ => some a
  | .ld a _ => some a
  | .cmp _ _ => none
  | .call _ => none
  | .ret => none
  | .iret => none
  | .jmp _ => none
  | .jeq _ => none
  | .jne _ => none
  | .jgt _ => none
  | .jlt _ => none
  | .jle _ => none
  | .jge _ => none
  | .hlt => none
  | .st _ _ => none
  | .push _ => none
  | .pop _ => none
  | .prn _ => none
  | .pra _ => none

/-- The instructions that write no register and no memory: CMP, JMP, the six conditional jumps, HLT, PRN, PRA. -/
def writesNoRegister : Instr → Bool
  | .cmp _ _ => true
  | .jmp _ => true
  | .jeq _ => true
  | .jne _ => true
  | .jgt _ => true
  | .jlt _ => true
  | .jle _ => true
  | .jge _ => true
  | .hlt => true
  | .prn _ => true
  | .pra _ => true
  | .add _ _ => false
  | .sub _ _ => false
  | .mul _ _ => false
  | .div _ _ => false
  | .mod _ _ => false
  | .inc _ => false
  | .dec _ => false
  | .and _ _ => false
  | .not _ => false
  | .or _ _ => false
  | .xor _ _ => false
  | .shl _ _ => false
  | .shr _ _ => false
  | .call _ => false
  | .ret => false
  | .iret => false
  | .ldi _ _ => false
  | .ld _ _ => false
  | .st _ _ => false
  | .push _ => false
  | .pop _ => false

/-- The six conditional jumps (41_control_flow.md R146). -/
def condJumps : List (Byte → Instr) := [.jeq, .jne, .jgt, .jge, .jlt, .jle]

/-- `exec i` answers next states from `s` and from `s` with another FL, and either neither is Faulted and they agree but for
FL, or they show the same run state, trace and `timer_due`, the rest being unspecified (60_exceptions.md R200). -/
def AgreesButFl (i : Instr) (s : State) (f : Byte) : Prop :=
  ∃ t u, exec i s = .next t ∧ exec i (s.setFl f) = .next u ∧ u.run = t.run ∧ u.trace = t.trace ∧
    u.timerDue = t.timerDue ∧ (t.NotFaulted → u.setFl t.fl = t)

/-- `dispatch` answers the same fault from `s` and from `s` with another FL, or states that agree but for FL, for the frame
byte that holds FL, and for a `pc` loaded from that very byte. -/
def DispatchAgreesButFl (p : Config.Params) (n : Line) (s : State) (f : Byte) : Prop :=
  (∀ e, dispatch p n s = .error e → dispatch p n (s.setFl f) = .error e) ∧
  ∀ t, dispatch p n s = .ok t → ∃ u, dispatch p n (s.setFl f) = .ok u ∧
    t.mem.read ((s.reg SP).toNat - 2) = s.fl ∧ u.mem.read ((s.reg SP).toNat - 2) = f ∧
    (∀ a, a ≠ (s.reg SP).toNat - 2 → u.mem.read a = t.mem.read a) ∧ (∀ r, u.reg r = t.reg r) ∧
    u.run = t.run ∧ u.timerDue = t.timerDue ∧ u.trace = t.trace ∧
    ∀ vec, vectorAddress p n = .ok vec → vec.toNat ≠ (s.reg SP).toNat - 2 → u.pc = t.pc

/-- The opcode byte is unknown under the opcode map: the map gives it no row, or a byte that is no row (30_encoding.md R87). -/
def UnknownUnder (p : Config.Params) (op : Byte) : Prop := ∀ row, p.opcodeMap op = some row → row ∉ knownOpcodes

/-- A fault of the poll or of the instruction part leaves no claim to the state but this (60_exceptions.md R200). -/
def StepsToFault (p : Config.Params) (s : State) (opcode : Option Byte) (f : FaultInfo) : Prop :=
  ∃ t, stepWith p s = .next t ∧ t.FaultedFrom (pollRequests s) opcode f

/-- The instruction a cycle from `s` executes, with the state it executes it in: the poll is served, then the bytes at the
`pc` it leaves decode to `i` under the opcode map (30_encoding.md R93). -/
def Executes (p : Config.Params) (s s2 : State) (i : Instr) : Prop :=
  s.run = .running ∧ pollDispatch p (pollRequests s) = .ok s2 ∧ ∃ rest, decodeWith p.opcodeMap (fetchBytes s2) = .ok (i, rest)

end Sys2Proof.Claims

open Sys2Proof Sys2Proof.Machine Sys2Proof.Claims

/-! ### Encoding -/

/-- Words written out from the encodings of the spec decode to their instructions, one of every family. The byte values are
the spec's decision D1 (log 1). -/
def Obligations.DecodesWordsWrittenFromTheSpec : Prop :=
  decode [0b10100000, 0b00000010, 0b00000101] = .ok (.add 2 5, []) ∧
  decode [0b01101001, 0b00000011] = .ok (.not 3, []) ∧
  decode [0b10100111, 0b00000001, 0b00000000] = .ok (.cmp 1 0, []) ∧
  decode [0b01000101, 0b00000111] = .ok (.push 7, []) ∧
  decode [0b01010000, 0b00000010] = .ok (.call 2, []) ∧
  decode [0b01011010, 0b00000001] = .ok (.jge 1, []) ∧
  decode [0b10000010, 0b00000000, 0b11111111] = .ok (.ldi 0 255, []) ∧
  decode [0b10000100, 0b00000001, 0b00000000] = .ok (.st 1 0, []) ∧
  decode [0b01001000, 0b00000011] = .ok (.pra 3, []) ∧
  decode [0b00010011] = .ok (.iret, [])

/-- Decoding and encoding agree for every instruction with every operand byte: a byte list decodes to `i` with `rest` left
exactly when it is the encoding of `i` followed by `rest`; and with any opcode map (00_scope.md R9, log 1), exactly when it
is an opcode byte that the map gives the row of `i`, then the operands of `i`, then `rest`. -/
def Obligations.DecodeAnswersExactlyTheEncoding : Prop :=
  (∀ (bs : List Byte) (i : Instr) (rest : List Byte), decode bs = .ok (i, rest) ↔ bs = encode i ++ rest) ∧
  ∀ (m : Byte → Option Byte) (bs : List Byte) (i : Instr) (rest : List Byte),
    decodeWith m bs = .ok (i, rest) ↔ ∃ op, m op = some i.opcode ∧ bs = op :: i.operands ++ rest

/-- The decoder rejects by name: an opcode byte outside the 32 of the map whatever follows it (30_encoding.md R87), and a known
opcode whose operands are cut off at the k-th (30_encoding.md R93). That exactly these 32 bytes are known is the spec's
decision D1, D2. -/
def Obligations.DecodeRejectsByName : Prop :=
  (∀ op rest, decode (op :: rest) = .error (.unknownOpcode op) ↔ op ∉ knownOpcodes) ∧
  (∀ (i : Instr) (bs : List Byte), bs ≠ [] → bs <+: encode i → bs ≠ encode i →
    decode bs = .error (.missingOperand i.opcode bs.length)) ∧
  knownOpcodes.Nodup ∧ knownOpcodes.length = 32

/-! ### ALU -/

/-- 40_alu.md R111, R112, R113: ADD, SUB and MUL. -/
def Obligations.AddSubMulWrapModulo256 : Prop :=
  BinaryRule 0xA0 .add (fun a b s => s.setReg a (mod256 ((s.reg a).toNat + (s.reg b).toNat))) ∧
  BinaryRule 0xA1 .sub (fun a b s => s.setReg a (mod256 ((s.reg a).toNat - (s.reg b).toNat))) ∧
  BinaryRule 0xA2 .mul (fun a b s => s.setReg a (mod256 ((s.reg a).toNat * (s.reg b).toNat)))

/-- 40_alu.md R114, R115: DIV and MOD. -/
def Obligations.DivModUnsignedOrDivisionByZero : Prop :=
  DivisionRule 0xA3 .div (fun x y => x / y) ∧ DivisionRule 0xA4 .mod (fun x y => x % y)

/-- 40_alu.md R116, R117: DEC and INC. -/
def Obligations.DecIncWrapModulo256 : Prop :=
  UnaryRule 0x66 .dec (fun a s => s.setReg a (mod256 ((s.reg a).toNat - 1))) ∧
  UnaryRule 0x65 .inc (fun a s => s.setReg a (mod256 ((s.reg a).toNat + 1)))

/-- 40_alu.md R118, R119, R120, R123: AND, OR, XOR bit by bit, and NOT as the complement to 255. -/
def Obligations.LogicIsBitwise : Prop :=
  (∃ f : Byte → Byte → Byte, (∀ x y n, (f x y).getLsbD n = (x.getLsbD n && y.getLsbD n)) ∧
    BinaryRule 0xA8 .and (fun a b s => s.setReg a (f (s.reg a) (s.reg b)))) ∧
  (∃ f : Byte → Byte → Byte, (∀ x y n, (f x y).getLsbD n = (x.getLsbD n || y.getLsbD n)) ∧
    BinaryRule 0xAA .or (fun a b s => s.setReg a (f (s.reg a) (s.reg b)))) ∧
  (∃ f : Byte → Byte → Byte, (∀ x y n, (f x y).getLsbD n = (x.getLsbD n ^^ y.getLsbD n)) ∧
    BinaryRule 0xAB .xor (fun a b s => s.setReg a (f (s.reg a) (s.reg b)))) ∧
  UnaryRule 0x69 .not (fun a s => s.setReg a (BitVec.ofNat 8 (255 - (s.reg a).toNat)))

/-- 40_alu.md R121, R122: SHR and SHL by the whole byte `x[B]`; that the amount is not reduced modulo 8 is the spec's
inference in R121 (log 24). -/
def Obligations.ShiftsByTheWholeByte : Prop :=
  BinaryRule 0xAD .shr (fun a b s => s.setReg a (BitVec.ofNat 8 ((s.reg a).toNat / 2 ^ (s.reg b).toNat))) ∧
  BinaryRule 0xAC .shl (fun a b s => s.setReg a (mod256 ((s.reg a).toNat * 2 ^ (s.reg b).toNat)))

/-- 40_alu.md R124: CMP writes the whole FL byte from the unsigned order. That bits 3 to 7 become 0 is the spec's decision
D29 (log 15). -/
def Obligations.CmpSetsExactlyOneFlag : Prop :=
  ∃ f : Nat → Nat → Byte,
    (∀ x y, x = y → f x y = 0x01) ∧ (∀ x y, x > y → f x y = 0x02) ∧ (∀ x y, x < y → f x y = 0x04) ∧
    BinaryRule 0xA7 .cmp (fun a b s => s.setFl (f (s.reg a).toNat (s.reg b).toNat))

/-! ### Stack and control flow -/

/-- 41_control_flow.md R141: PUSH. The fault at SP = 0 is the spec's decision D6 (log 9), the value PUSH R7 stores its decision
D17 (log 13). -/
def Obligations.PushDecrementsThenStores : Prop :=
  (∀ a rest, decode (0x45 :: a :: rest) = .ok (.push a, rest)) ∧
  (∀ r s, s.reg SP ≠ 0 → exec (.push (regByte r)) s =
    .next ((s.setReg SP (s.reg SP - 1)).setMem
      (s.mem.write (s.reg SP - 1).toNat (if r = SP then s.reg SP - 1 else s.reg r)))) ∧
  (∀ r s, s.reg SP = 0 → ∃ t, exec (.push (regByte r)) s = .next t ∧
    t.FaultedFrom s (some 0x45) { kind := .addressOutOfRange, addr := some (-1) }) ∧
  (∀ a s, 8 ≤ a.toNat → ∃ t, exec (.push a) s = .next t ∧ t.FaultedFrom s (some 0x45) { kind := .invalidRegister })

/-- 41_control_flow.md R142: POP; POP R7 loads SP, then increments it. The faults at 255 are the spec's decision D6 (log 9), the
order its decision D17 (log 13). -/
def Obligations.PopLoadsThenIncrements : Prop :=
  (∀ a rest, decode (0x46 :: a :: rest) = .ok (.pop a, rest)) ∧
  (∀ r s, r ≠ SP → s.reg SP ≠ 255 → exec (.pop (regByte r)) s =
    .next ((s.setReg r (s.mem.read (s.reg SP).toNat)).setReg SP (s.reg SP + 1))) ∧
  (∀ s, s.mem.read (s.reg SP).toNat ≠ 255 → exec (.pop (regByte SP)) s =
    .next (s.setReg SP (s.mem.read (s.reg SP).toNat + 1))) ∧
  (∀ r s, (r ≠ SP ∧ s.reg SP = 255) ∨ (r = SP ∧ s.mem.read (s.reg SP).toNat = 255) →
    ∃ t, exec (.pop (regByte r)) s = .next t ∧
      t.FaultedFrom s (some 0x46) { kind := .addressOutOfRange, addr := some 256 }) ∧
  (∀ a s, 8 ≤ a.toNat → ∃ t, exec (.pop a) s = .next t ∧ t.FaultedFrom s (some 0x46) { kind := .invalidRegister })

/-- 41_control_flow.md R143: CALL pushes `pc0 + 2` and jumps to `x[r]` as it stands after the push. The faults are the spec's
decisions D6 and D7 (log 9, 10), the order its decision D17 (log 13). -/
def Obligations.CallPushesReturnAddress : Prop :=
  (∀ a rest, decode (0x50 :: a :: rest) = .ok (.call a, rest)) ∧
  (∀ r s, s.pc.toNat ≤ 253 → s.reg SP ≠ 0 → exec (.call (regByte r)) s =
    .next (((s.setReg SP (s.reg SP - 1)).setMem
      (s.mem.write (s.reg SP - 1).toNat (BitVec.ofNat 8 (s.pc.toNat + 2)))).setPc
      ((if r = SP then s.reg SP - 1 else s.reg r).setWidth 9))) ∧
  (∀ r s, 254 ≤ s.pc.toNat → ∃ t, exec (.call (regByte r)) s = .next t ∧
    t.FaultedFrom s (some 0x50) { kind := .addressOutOfRange, addr := some (s.pc.toNat + 2 : Nat) }) ∧
  (∀ r s, s.pc.toNat ≤ 253 → s.reg SP = 0 → ∃ t, exec (.call (regByte r)) s = .next t ∧
    t.FaultedFrom s (some 0x50) { kind := .addressOutOfRange, addr := some (-1) }) ∧
  (∀ a s, 8 ≤ a.toNat → ∃ t, exec (.call a) s = .next t ∧ t.FaultedFrom s (some 0x50) { kind := .invalidRegister })

/-- 41_control_flow.md R144: RET pops the top of the stack into `pc`. The fault at SP = 255 is the spec's decision D6 (log 9). -/
def Obligations.RetPopsProgramCounter : Prop :=
  (∀ rest, decode (0x11 :: rest) = .ok (.ret, rest)) ∧
  (∀ s, s.reg SP ≠ 255 → exec .ret s =
    .next ((s.setReg SP (s.reg SP + 1)).setPc ((s.mem.read (s.reg SP).toNat).setWidth 9))) ∧
  (∀ s, s.reg SP = 255 → ∃ t, exec .ret s = .next t ∧
    t.FaultedFrom s (some 0x11) { kind := .addressOutOfRange, addr := some 256 })

/-- 41_control_flow.md R145: JMP. -/
def Obligations.JmpGoesToTheRegister : Prop :=
  UnaryRule 0x54 .jmp (fun a s => s.setPc ((s.reg a).setWidth 9))

/-- 41_control_flow.md R147, R148, R149, R151: JEQ, JNE, JGT and JLT test one bit of FL. -/
def Obligations.JumpsOnOneFlag : Prop :=
  JumpRule 0x55 .jeq (fun fl => fl.getLsbD 0 = true) ∧
  JumpRule 0x56 .jne (fun fl => fl.getLsbD 0 = false) ∧
  JumpRule 0x57 .jgt (fun fl => fl.getLsbD 1 = true) ∧
  JumpRule 0x58 .jlt (fun fl => fl.getLsbD 2 = true)

/-- 41_control_flow.md R150, R152: JGE and JLE test set bits, so neither is taken with FL = 0: the spec's decision D15
(log 12). -/
def Obligations.JumpsOnTwoFlags : Prop :=
  JumpRule 0x5A .jge (fun fl => fl.getLsbD 1 = true ∨ fl.getLsbD 0 = true) ∧
  JumpRule 0x59 .jle (fun fl => fl.getLsbD 2 = true ∨ fl.getLsbD 0 = true)

/-! ### Data, output, halt, interrupt return -/

/-- 42_data_and_io.md R170: ST. What the write does to every byte of memory is `MemoryAccessFollowsItsRules`. -/
def Obligations.StStoresThroughTheRegister : Prop :=
  BinaryRule 0x84 .st (fun a b s => s.setMem (s.mem.write (s.reg a).toNat (s.reg b)))

/-- 42_data_and_io.md R171: LD. -/
def Obligations.LdLoadsThroughTheRegister : Prop :=
  BinaryRule 0x83 .ld (fun a b s => s.setReg a (s.mem.read (s.reg b).toNat))

/-- 42_data_and_io.md R172: LDI; only the first operand is checked. -/
def Obligations.LdiLoadsTheImmediate : Prop :=
  (∀ a imm rest, decode (0x82 :: a :: imm :: rest) = .ok (.ldi a imm, rest)) ∧
  (∀ r imm s, exec (.ldi (regByte r) imm) s = .next (s.setReg r imm)) ∧
  (∀ a imm s, 8 ≤ a.toNat →
    ∃ t, exec (.ldi a imm) s = .next t ∧ t.FaultedFrom s (some 0x82) { kind := .invalidRegister })

/-- 42_data_and_io.md R173, R174: PRN and PRA emit the byte and change nothing else. That an output is one event with a byte,
appended to a trace without bound, and that the port never stalls, so that both complete in every state, are the spec's
decisions D19 and D26 (log 21). -/
def Obligations.OutputEmitsTheRegister : Prop :=
  UnaryRule 0x47 .prn (fun a s => s.emit (.prn (s.reg a))) ∧ UnaryRule 0x48 .pra (fun a s => s.emit (.pra (s.reg a)))

/-- 42_data_and_io.md R175: HLT halts, and the cycle then advances `pc` by 1, to 256 when the HLT stands at 255. The advance is
the spec's decision D18 (log 14). -/
def Obligations.HltHaltsAndAdvances : Prop :=
  (∀ rest, decode (0x01 :: rest) = .ok (.hlt, rest)) ∧
  (∀ s, exec .hlt s = .next (s.setRun .halted)) ∧
  (∀ p s s2, Executes p s s2 .hlt → stepWith p s = .next ((s2.setRun .halted).setPc (s2.pc + 1)))

/-- 43_interrupt_return.md R190: IRET pops R6 down to R0, FL and `pc`, leaves IM = 1 and clears `timer_due`; with fewer than nine
bytes up to address 255 it faults. That it checks for no frame is the spec's decision D23 (log 20), the fault its decision
D6 (log 9). -/
def Obligations.IretRestoresTheFrame : Prop :=
  (∀ rest, decode (0x13 :: rest) = .ok (.iret, rest)) ∧
  (∀ s, (s.reg SP).toNat ≤ 0xF6 → ∃ t, exec .iret s = .next t ∧
    let sp := (s.reg SP).toNat
    t.reg IS = s.mem.read sp ∧ t.reg IM = 1 ∧ t.reg 4 = s.mem.read (sp + 2) ∧ t.reg 3 = s.mem.read (sp + 3) ∧
    t.reg 2 = s.mem.read (sp + 4) ∧ t.reg 1 = s.mem.read (sp + 5) ∧ t.reg 0 = s.mem.read (sp + 6) ∧
    t.fl = s.mem.read (sp + 7) ∧ t.pc = (s.mem.read (sp + 8)).setWidth 9 ∧ (t.reg SP).toNat = sp + 9 ∧
    t.timerDue = false ∧ t.mem = s.mem ∧ t.run = s.run ∧ t.trace = s.trace) ∧
  (∀ s, 0xF6 < (s.reg SP).toNat → ∃ t, exec .iret s = .next t ∧
    t.FaultedFrom s (some 0x13) { kind := .addressOutOfRange, addr := some 256 })

/-! ### All instructions -/

/-- Every instruction answers a next state from every state: `exec` never answers a host fault or a refusal. That a fault of the
spec is a next state, the Faulted one, is log 3. -/
def Obligations.EveryInstructionAnswersNext : Prop :=
  ∀ i s, ∃ t, exec i s = .next t

/-- An ill-formed instruction raises InvalidRegister before anything else: in every state, whatever else would fault (30_encoding.md
R83, 60_exceptions.md R208). The fault is the spec's decision D5, the order its decision D16 (log 8, 18). -/
def Obligations.IllFormedInstructionRaisesInvalidRegister : Prop :=
  ∀ (i : Instr) (s : State), i.wf = false →
    ∃ t, exec i s = .next t ∧ t.FaultedFrom s (some i.opcode) { kind := .invalidRegister }

/-- Frame of the 13 ALU instructions but CMP, LDI and LD (10_state.md R33, 40_alu.md R110): but for the destination register
nothing changes, and every byte of memory reads as before. -/
def Obligations.RegisterDestinationFrame : Prop :=
  ∀ (i : Instr) (o : Byte) (s t : State), plainDest i = some o → exec i s = .next t → t.NotFaulted →
    (∀ r, regByte r ≠ o → t.reg r = s.reg r) ∧ t.fl = s.fl ∧ t.pc = s.pc ∧
    (∀ a, t.mem.read a = s.mem.read a) ∧ t.run = s.run ∧ t.timerDue = s.timerDue ∧ t.trace = s.trace

/-- Frame of CMP, JMP, the six conditional jumps, HLT, PRN and PRA: no register and no byte of memory changes; FL changes only
by CMP, the trace only by PRN and PRA, the run state only by HLT; `pc` may change. -/
def Obligations.NoRegisterFrame : Prop :=
  ∀ (i : Instr) (s t : State), writesNoRegister i = true → exec i s = .next t → t.NotFaulted →
    (∀ r, t.reg r = s.reg r) ∧ (∀ a, t.mem.read a = s.mem.read a) ∧ t.timerDue = s.timerDue ∧
    ((∀ a b, i ≠ .cmp a b) → t.fl = s.fl) ∧ ((∀ a, i ≠ .prn a ∧ i ≠ .pra a) → t.trace = s.trace) ∧
    (i ≠ .hlt → t.run = s.run)

/-- Frame of ST, PUSH and CALL, which store one byte: ST at the byte register A holds before, PUSH and CALL at the decremented SP.
Every other byte of memory reads as before; ST writes no register, PUSH and CALL only SP. -/
def Obligations.StoreFrame : Prop :=
  ∀ (s t : State), s.mem.wf = true → t.NotFaulted →
    (∀ ra b, exec (.st (regByte ra) b) s = .next t →
      (∀ a, a ≠ (s.reg ra).toNat → t.mem.read a = s.mem.read a) ∧ (∀ r, t.reg r = s.reg r) ∧ t.fl = s.fl ∧ t.pc = s.pc ∧
      t.run = s.run ∧ t.timerDue = s.timerDue ∧ t.trace = s.trace) ∧
    (∀ i o, i = .push o ∨ i = .call o → exec i s = .next t →
      (∀ a, a ≠ (s.reg SP - 1).toNat → t.mem.read a = s.mem.read a) ∧ (∀ r, r ≠ SP → t.reg r = s.reg r) ∧ t.fl = s.fl ∧
      t.run = s.run ∧ t.timerDue = s.timerDue ∧ t.trace = s.trace)

/-- Frame of POP, RET and IRET, which store nothing: every byte of memory reads as before; POP changes only its register and SP,
RET only SP and `pc`, IRET registers, FL, `pc` and `timer_due`. -/
def Obligations.PopFrame : Prop :=
  ∀ (s t : State), t.NotFaulted →
    (∀ o, exec (.pop o) s = .next t → (∀ a, t.mem.read a = s.mem.read a) ∧
      (∀ r, regByte r ≠ o → r ≠ SP → t.reg r = s.reg r) ∧ t.fl = s.fl ∧ t.pc = s.pc ∧ t.run = s.run ∧
      t.timerDue = s.timerDue ∧ t.trace = s.trace) ∧
    (exec .ret s = .next t → (∀ a, t.mem.read a = s.mem.read a) ∧ (∀ r, r ≠ SP → t.reg r = s.reg r) ∧ t.fl = s.fl ∧
      t.run = s.run ∧ t.timerDue = s.timerDue ∧ t.trace = s.trace) ∧
    (exec .iret s = .next t → (∀ a, t.mem.read a = s.mem.read a) ∧ t.run = s.run ∧ t.trace = s.trace)

/-- Memory access (20_memory.md R61, R62): an address of 256 or more raises AddressOutOfRange; below, a read gives the byte at the
address and a write changes that byte alone. The canonical form of memory is an invariant (`StepKeepsInvariant`). -/
def Obligations.MemoryAccessFollowsItsRules : Prop :=
  ∀ (s : State) (a : Nat) (v : Byte),
    (256 ≤ a → memRead s a = .error { kind := .addressOutOfRange, addr := some a } ∧
      memWrite s a v = .error { kind := .addressOutOfRange, addr := some a }) ∧
    (a < 256 → memRead s a = .ok (s.mem.read a)) ∧
    (a < 256 → s.mem.wf = true → ∃ t, memWrite s a v = .ok t ∧ t.mem.wf = true ∧
      (∀ b, t.mem.read b = if b = a then v else s.mem.read b) ∧ t = { s with mem := t.mem })

/-! ### Pairs of instructions -/

/-- CALL then RET restores `pc` to the call address + 2 with no net stack growth, from any state that kept SP and the byte on the
stack top (41_control_flow.md R143, R144, with the length of 90_conflicts.md C1). -/
def Obligations.RetReturnsBehindTheCall : Prop :=
  ∀ (r : RegIx) (s : State), s.mem.wf = true → s.pc.toNat ≤ 253 → s.reg SP ≠ 0 →
    ∃ t, exec (.call (regByte r)) s = .next t ∧
      ∀ u : State, u.reg SP = t.reg SP → u.mem.read (u.reg SP).toNat = t.mem.read (t.reg SP).toNat →
        exec .ret u = .next ((u.setReg SP (s.reg SP)).setPc (s.pc + 2))

/-- PUSH then POP of the same register, SP among them, leaves every register as it was (41_control_flow.md R142, an inference the
spec marks as its own, 90_conflicts.md C14). -/
def Obligations.PopUndoesPush : Prop :=
  ∀ (r : RegIx) (s : State), s.mem.wf = true → s.reg SP ≠ 0 →
    ∃ t u, exec (.push (regByte r)) s = .next t ∧ exec (.pop (regByte r)) t = .next u ∧ (∀ q, u.reg q = s.reg q) ∧
      u.fl = s.fl ∧ u.pc = s.pc ∧ ∀ a, a ≠ (s.reg SP - 1).toNat → u.mem.read a = s.mem.read a

/-- A byte that ST stores where the next instruction is fetched is the opcode byte the next fetch sees (20_memory.md R72, an
inference and the decision D25 of the spec). -/
def Obligations.StoreIsSeenByTheNextFetch : Prop :=
  ∀ (ra rb : RegIx) (s : State), s.mem.wf = true →
    ∃ t, exec (.st (regByte ra) (regByte rb)) s = .next t ∧
      ∀ u : State, u.mem = t.mem → u.pc = (s.reg ra).setWidth 9 → (fetchBytes u).head? = some (s.reg rb)

/-! ### Interrupts -/

/-- The poll of 60_exceptions.md R211: what step 1 sets, when step 2 dispatches nothing, which line it dispatches, and that it comes
first in the cycle of a Running block. It rests on choices: the inputs are this model's schedule (log 7), the sticky timer and
`kbd_req` the spec's decisions D12 and D13 (log 19), the other IS bits left alone its decision D22 (log 25); what a faulting
dispatch leaves is log 3, 4 and 18. -/
def Obligations.EachCycleBeginsWithThePoll : Prop :=
  (∀ s : State, (pollRequests s).timerDue = (s.timerDue || s.nextInput.tick) ∧
    (pollRequests s).reg IS = s.reg IS ||| (if (s.timerDue || s.nextInput.tick) = true then 0x01 else 0) |||
      (if s.nextInput.kbdReq = true then 0x02 else 0) ∧
    (∀ r, r ≠ IS → (pollRequests s).reg r = s.reg r) ∧ (pollRequests s).pc = s.pc ∧ (pollRequests s).fl = s.fl ∧
    (pollRequests s).mem = s.mem ∧ (pollRequests s).run = s.run ∧ (pollRequests s).trace = s.trace) ∧
  (∀ p (s : State), s.reg IM = 0 ∨ s.reg IM &&& s.reg IS = 0 → pollDispatch p s = .ok s) ∧
  (∀ p (s : State) (n : Line), s.reg IM ≠ 0 → (s.reg IM &&& s.reg IS).getLsbD n = true →
    (∀ m < n, (s.reg IM &&& s.reg IS).getLsbD m = false) → pollDispatch p s = dispatch p n s) ∧
  (∀ p (s : State), s.run = .running →
    (∀ s2, pollDispatch p (pollRequests s) = .ok s2 → stepWith p s = fetchExecute p s2) ∧
    (∀ f, pollDispatch p (pollRequests s) = .error f → StepsToFault p s none f))

/-- Dispatch with room on the stack (60_exceptions.md R216, R217, and the frame of R219, an inference the spec marks as its own): the
nine frame bytes, IM = 0, the dispatched bit of IS cleared, SP down by nine, and `pc` loaded with the byte that the vector
address holds after the pushes. -/
def Obligations.DispatchSavesTheContext : Prop :=
  ∀ (p : Config.Params) (n : Line) (vec : Byte) (s : State),
    (n = 0 ∧ vec = 0xF8) ∨ (n = 1 ∧ vec = 0xF9) ∨ (2 ≤ n.val ∧ p.vecHigh n = some vec) →
    s.pc.toNat ≤ 255 → 9 ≤ (s.reg SP).toNat → s.mem.wf = true →
    ∃ t, dispatch p n s = .ok t ∧
      let sp := (s.reg SP).toNat
      (t.reg SP).toNat = sp - 9 ∧ t.reg IM = 0 ∧
      (∀ m, (t.reg IS).getLsbD m = ((s.reg IS).getLsbD m && decide (m ≠ n.val))) ∧
      (∀ r : RegIx, r.val < 5 → t.reg r = s.reg r) ∧
      (t.mem.read (sp - 1)).toNat = s.pc.toNat ∧ t.mem.read (sp - 2) = s.fl ∧
      (∀ r : RegIx, r.val < 5 → t.mem.read (sp - 3 - r.val) = s.reg r) ∧
      t.mem.read (sp - 8) = 0 ∧ t.mem.read (sp - 9) = t.reg IS ∧
      (∀ a, a < sp - 9 ∨ sp ≤ a → t.mem.read a = s.mem.read a) ∧
      t.pc = (t.mem.read vec.toNat).setWidth 9 ∧ t.fl = s.fl ∧ t.run = s.run ∧ t.timerDue = s.timerDue ∧ t.trace = s.trace

/-- The faults of dispatch, in their order (60_exceptions.md R206, R208, R216): no vector, then `pc` beyond 255, then fewer than nine
bytes below SP. They are the spec's decisions D6, D7, D14 and D16 (log 9, 10, 11, 18). -/
def Obligations.DispatchFaultsInOrder : Prop :=
  (∀ p (n : Line) s, 2 ≤ n.val → p.vecHigh n = none →
    dispatch p n s = .error { kind := .unmappedVector, line := some n }) ∧
  (∀ p (n : Line) (s : State), n.val < 2 ∨ (p.vecHigh n).isSome = true → 255 < s.pc.toNat →
    dispatch p n s = .error { kind := .addressOutOfRange, addr := some s.pc.toNat }) ∧
  (∀ p (n : Line) (s : State), n.val < 2 ∨ (p.vecHigh n).isSome = true → s.pc.toNat ≤ 255 → (s.reg SP).toNat < 9 →
    dispatch p n s = .error { kind := .addressOutOfRange, addr := some (-1) })

/-- IRET undoes a dispatch: from any state that kept SP and the nine frame bytes, whatever else the handler did, IRET restores R0 to
R4, FL, `pc` and SP, restores IS as saved, leaves IM = 1 and clears `timer_due` (60_exceptions.md R221, an inference the spec
marks as its own; 43_interrupt_return.md R190). -/
def Obligations.IretUndoesDispatch : Prop :=
  ∀ (p : Config.Params) (n : Line) (s t : State),
    s.pc.toNat ≤ 255 → 9 ≤ (s.reg SP).toNat → s.mem.wf = true → dispatch p n s = .ok t →
    ∀ u : State, u.reg SP = t.reg SP →
      (∀ a, (t.reg SP).toNat ≤ a → a < (s.reg SP).toNat → u.mem.read a = t.mem.read a) →
      ∃ v, exec .iret u = .next v ∧ (∀ r : RegIx, r.val < 5 → v.reg r = s.reg r) ∧ v.reg SP = s.reg SP ∧ v.fl = s.fl ∧
        v.pc = s.pc ∧ v.reg IS = t.reg IS ∧ v.reg IM = 1 ∧ v.timerDue = false ∧ v.mem = u.mem ∧ v.run = u.run ∧
        v.trace = u.trace

/-- While IM is 0 nothing is dispatched, and only IRET or a write to R5 by the instruction makes IM non-zero (60_exceptions.md R214,
R220): if a cycle begins with IM = 0 and ends, not Faulted, with IM non-zero, it executed IRET, or an instruction whose
destination register is R5, at the very `pc` the cycle began with. -/
def Obligations.OnlyIretOrAWriteToR5Enables : Prop :=
  ∀ (p : Config.Params) (s t : State), s.run = .running → s.reg IM = 0 → stepWith p s = .next t → t.NotFaulted →
    t.reg IM ≠ 0 →
    ∃ i rest, decodeWith p.opcodeMap (fetchBytes s) = .ok (i, rest) ∧
      (i = .iret ∨ i = .pop (regByte IM) ∨ plainDest i = some (regByte IM))

/-- Once `timer_due` is true it stays true until IRET clears it (10_state.md R51, 60_exceptions.md R213: the spec's decision D12). That a
fault leaves it is this model's reading (log 4). -/
def Obligations.TimerDueStaysUntilIret : Prop :=
  ∀ (p : Config.Params) (s t : State), s.timerDue = true → stepWith p s = .next t → t.timerDue = false →
    ∃ s2, Executes p s s2 .iret

/-! ### The cycle -/

/-- A step runs the decoded instruction: when the poll dispatches nothing and the bytes at `pc` decode to `i`, the step is `exec` of
`i` in the polled state, which has the same `pc` and memory, and then, unless it faulted or opcode bit 4 is 1, `pc` becomes
`pc0 + 1 + n` (30_encoding.md R93). -/
def Obligations.StepRunsTheDecodedInstruction : Prop :=
  ∀ (s : State) (i : Instr) (rest : List Byte) (t : State), s.run = .running → selectLine (pollRequests s) = none →
    decode (fetchBytes s) = .ok (i, rest) → exec i (pollRequests s) = .next t →
    ((∃ r, t.run = .faulted r) → step s = .next t) ∧
    (t.NotFaulted → opSetsPc i.opcode = true → step s = .next t) ∧
    (t.NotFaulted → opSetsPc i.opcode = false →
      step s = .next (t.setPc (s.pc + 1 + BitVec.ofNat 9 i.operands.length)))

/-- The end of a cycle (10_state.md R38): after an instruction with opcode bit 4 equal to 0 that did not fault, `pc` is the
number `pc0 + 1 + n`, without a wrap; one with bit 4 equal to 1 sets `pc` itself. Bit 4 and `n` are those of the instruction's
row of the table, with every opcode map: this model's reading (log 1). That HLT advances too is the spec's decision D18
(log 14). -/
def Obligations.PcAdvancesByTheLength : Prop :=
  ∀ (p : Config.Params) (s s2 : State) (i : Instr) (t : State), Executes p s s2 i → stepWith p s = .next t → t.NotFaulted →
    (opSetsPc i.opcode = false → t.pc.toNat = s2.pc.toNat + 1 + opOperandCount i.opcode) ∧
    (opSetsPc i.opcode = true → exec i s2 = .next t)

/-- After a dispatch the same cycle executes the handler's first instruction, fetched at the `pc` the dispatch left (60_exceptions.md
R218, an inference the spec marks as its own). -/
def Obligations.DispatchingCycleRunsTheHandler : Prop :=
  ∀ (s s2 : State) (n : Line) (i : Instr) (rest : List Byte) (t : State), s.run = .running →
    selectLine (pollRequests s) = some n → dispatch Config.Params.standard n (pollRequests s) = .ok s2 →
    decode (fetchBytes s2) = .ok (i, rest) → exec i s2 = .next t →
    ((∃ r, t.run = .faulted r) → step s = .next t) ∧
    (t.NotFaulted → opSetsPc i.opcode = true → step s = .next t) ∧
    (t.NotFaulted → opSetsPc i.opcode = false →
      step s = .next (t.setPc (s2.pc + 1 + BitVec.ofNat 9 i.operands.length)))

/-- The faults of the fetch (30_encoding.md R87, R93, 60_exceptions.md R201, R202, R208) in a cycle that dispatches nothing, with
every choice of the parameters: `pc` beyond 255; then an unknown opcode, also at 255, but for 0x00 with NOP_AT_00 true, which
changes nothing but `pc <- pc0 + 1`; then an operand beyond 255. They rest on the spec's decisions D2, D4, D8 and D16 (log 2,
10, 18); that the opcode map wins over NOP_AT_00 where it gives 0x00 a row is this model's choice (log 27). -/
def Obligations.FetchFaultsInOrder : Prop :=
  ∀ (p : Config.Params) (s : State), s.run = .running → selectLine (pollRequests s) = none →
    (255 < s.pc.toNat → StepsToFault p s none { kind := .addressOutOfRange, addr := some s.pc.toNat }) ∧
    (s.pc.toNat ≤ 255 → UnknownUnder p (s.mem.read s.pc.toNat) →
      (p.nopAt00 = true ∧ s.mem.read s.pc.toNat = 0 → stepWith p s = .next ((pollRequests s).setPc (s.pc + 1))) ∧
      (¬ (p.nopAt00 = true ∧ s.mem.read s.pc.toNat = 0) →
        StepsToFault p s (some (s.mem.read s.pc.toNat)) { kind := .unknownInstruction })) ∧
    (∀ i : Instr, s.pc.toNat ≤ 255 → p.opcodeMap (s.mem.read s.pc.toNat) = some i.opcode →
      255 < s.pc.toNat + i.operands.length →
      StepsToFault p s (some (s.mem.read s.pc.toNat)) { kind := .addressOutOfRange, addr := some 256 })

/-- Every step keeps the invariant, with every choice of the parameters: memory stays canonical and `pc` stays in 0 to 256 (10_state.md
R36, R49). That the free values after a fault stay within both is this model's choice (log 4). -/
def Obligations.StepKeepsInvariant : Prop :=
  ∀ (s t : State), s.Inv → (step s = .next t → t.Inv) ∧ ∀ p : Config.Params, stepWith p s = .next t → t.Inv

/-- A block in Halted or Faulted executes no cycle (30_encoding.md R96): Halted stays as it is; a Faulted block answers its record,
which is this model's choice (log 3). -/
def Obligations.TerminalStatesExecuteNoCycle : Prop :=
  ∀ (p : Config.Params) (s : State), (s.run = .halted → stepWith p s = .next s) ∧
    ∀ r, s.run = .faulted r → stepWith p s = .fault (.faulted r)

/-- Only HLT halts a Running block (10_state.md R50). -/
def Obligations.OnlyHltHalts : Prop :=
  ∀ (p : Config.Params) (s t : State), s.run = .running → stepWith p s = .next t → t.run = .halted →
    ∃ s2, Executes p s s2 .hlt

/-- A step that does not fault changes FL only by CMP or IRET (10_state.md R41; that CMP writes all of FL is D29). -/
def Obligations.OnlyCmpAndIretWriteFlags : Prop :=
  ∀ (p : Config.Params) (s t : State), stepWith p s = .next t → t.NotFaulted → t.fl ≠ s.fl →
    ∃ s2 i, Executes p s s2 i ∧ (i = .iret ∨ ∃ a b, i = .cmp a b)

/-- FL is read by the six conditional jumps, which test bits 0 to 2 only, and by interrupt dispatch, which pushes the whole byte
(10_state.md R42). Any other instruction does the same whatever FL holds; a conditional jump does the same for two FL bytes
that agree on bits 0 to 2; a dispatch puts the whole of FL in its frame and is otherwise the same. The poll's requests, the
selection of a line, the fetch, with it the decoding, and the end of the cycle do not depend on FL. That trace and `timer_due`
agree after a fault too is this model's reading (log 4), that the records do rests on log 18. -/
def Obligations.FlagsAreReadOnlyByJumpsAndDispatch : Prop :=
  (∀ (i : Instr) (s : State) (f : Byte), (∀ mk ∈ condJumps, ∀ a, i ≠ mk a) → AgreesButFl i s f) ∧
  (∀ mk ∈ condJumps, ∀ (a : Byte) (s : State) (f : Byte), (∀ k < 3, f.getLsbD k = s.fl.getLsbD k) →
    AgreesButFl (mk a) s f) ∧
  (∀ (p : Config.Params) (n : Line) (s : State) (f : Byte), s.mem.wf = true → DispatchAgreesButFl p n s f) ∧
  (∀ (s : State) (f : Byte), pollRequests (s.setFl f) = (pollRequests s).setFl f ∧
    selectLine (s.setFl f) = selectLine s ∧ fetchBytes (s.setFl f) = fetchBytes s) ∧
  ∀ (i : Instr) (op : Byte) (pc0 : PcWord) (t : State) (f : Byte),
    advance i op pc0 (t.setFl f) = (advance i op pc0 t).setFl f

/-- The output trace only grows, by one event at a time, and only when PRN or PRA of a register is executed; the event carries that
register's byte (10_state.md R52). That an output is an event with a byte on a trace without bound is the spec's decision D19
(log 21). -/
def Obligations.TraceGrowsOnlyByOutput : Prop :=
  ∀ (p : Config.Params) (s t : State), stepWith p s = .next t → t.trace ≠ s.trace →
    ∃ s2 r, (Executes p s s2 (.prn (regByte r)) ∧ t.trace = s.trace ++ [.prn (s2.reg r)]) ∨
      (Executes p s s2 (.pra (regByte r)) ∧ t.trace = s.trace ++ [.pra (s2.reg r)])

/-- UnsupportedOperation has code 3 and no step raises it (60_exceptions.md R203; the code numbers are the decision D8, log 18). -/
def Obligations.UnsupportedOperationIsNeverRaised : Prop :=
  FaultKind.unsupportedOperation.code = 3 ∧
  ∀ (p : Config.Params) (s t : State) (r : FaultRecord), stepWith p s = .next t → t.run = .faulted r →
    r.kind ≠ .unsupportedOperation

/-- The shape of a fault record and the code numbers (60_exceptions.md R201 to R207: the spec's decision D8): an address exactly for
AddressOutOfRange, a line exactly for UnmappedVector, and for a fault of an executed instruction `pc0` and the opcode byte
fetched there. -/
def Obligations.FaultRecordHasItsFields : Prop :=
  [FaultKind.addressOutOfRange, .unknownInstruction, .unsupportedOperation, .divisionByZero, .invalidRegister,
    .unmappedVector].map FaultKind.code = [1, 2, 3, 4, 5, 6] ∧
  ∀ (p : Config.Params) (s t : State) (r : FaultRecord), stepWith p s = .next t → t.run = .faulted r →
    (r.addr.isSome = true ↔ r.kind = .addressOutOfRange) ∧ (r.line.isSome = true ↔ r.kind = .unmappedVector) ∧
    ∀ s2 i, Executes p s s2 i → r.pc = s2.pc ∧ r.opcode = some (s2.mem.read s2.pc.toNat)

/-! ### Reset -/

/-- 10_state.md R39, R43: after reset `pc` is 0 and FL is 0, so that no flag is set. -/
def Obligations.ResetClearsPcAndFlags : Prop :=
  ∀ r0 r1 r2 r3 r4 : Byte, (State.resetWith r0 r1 r2 r3 r4).pc = 0 ∧ (State.resetWith r0 r1 r2 r3 r4).fl = 0 ∧
    flagE (State.resetWith r0 r1 r2 r3 r4).fl = false ∧ flagG (State.resetWith r0 r1 r2 r3 r4).fl = false ∧
    flagL (State.resetWith r0 r1 r2 r3 r4).fl = false

/-- The state after reset with an image of at most 256 bytes preloaded (70_reset_and_hazards.md R240), for every draw of R0 to R4 (the
spec's decision D10, log 5); R5 = R6 = 0 is its decision D11 (log 6). -/
def Obligations.ResetLeavesTheStatedValues : Prop :=
  ∀ (r0 r1 r2 r3 r4 : Byte) (image : List Byte), image.length ≤ 256 →
    ∃ t, (State.resetWith r0 r1 r2 r3 r4).preload image = some t ∧
      t.reg 0 = r0 ∧ t.reg 1 = r1 ∧ t.reg 2 = r2 ∧ t.reg 3 = r3 ∧ t.reg 4 = r4 ∧ t.reg IM = 0 ∧ t.reg IS = 0 ∧
      t.reg SP = 0xF4 ∧ t.pc = 0 ∧ t.fl = 0 ∧ (∀ a, t.mem.read a = image.getD a 0) ∧ t.run = .running ∧
      t.timerDue = false ∧ t.trace = []

/-- The invariant holds after reset, for every draw and every image that fits. -/
def Obligations.ResetMeetsInvariant : Prop :=
  State.reset.Inv ∧ ∀ (r0 r1 r2 r3 r4 : Byte) (image : List Byte) (t : State),
    (State.resetWith r0 r1 r2 r3 r4).preload image = some t → t.Inv

/-! ### Selection -/

/-- When Enabled, the lowest set bit of IM & IS is selected, and a pending line whose IM bit is 0 is not selected and stays pending
(60_exceptions.md R215). -/
def Obligations.LowestEnabledPendingLineIsSelected : Prop :=
  (∀ (s : State) (n : Line), s.reg IM ≠ 0 →
    (selectLine s = some n ↔ (s.reg IM &&& s.reg IS).getLsbD n = true ∧
      ∀ m : Line, m < n → (s.reg IM &&& s.reg IS).getLsbD m = false)) ∧
  (∀ (s : State) (m : Line), (s.reg IM).getLsbD m = false → selectLine s ≠ some m) ∧
  ∀ (p : Config.Params) (s t : State) (m : Line), pollDispatch p s = .ok t → (s.reg IM).getLsbD m = false →
    (t.reg IS).getLsbD m = (s.reg IS).getLsbD m
end

