-- ==== Sys2Proof/Laws/Decode.lean ====
section
/-! SUPPORT. The opcode map's rows do not overlap, and what the decoder answers. -/

namespace Sys2Proof

/-- No two rows of the opcode map have the same byte (30_encoding.md R85). -/
theorem opcodeTable_distinct : (opcodeTable.map Prod.fst).Nodup := by decide

/-- The map has 32 rows (30_encoding.md R85). -/
theorem opcodeTable_length : opcodeTable.length = 32 := by decide

/-- An opcode byte has a form exactly as a row of the map (30_encoding.md R87). -/
theorem opcodeForm_mem {op : Byte} {f : Form} (h : opcodeForm op = some f) : (op, f) ∈ opcodeTable := by
  unfold opcodeForm at h
  generalize opcodeTable = l at h
  induction l with
  | nil => simp at h
  | cons r l ih =>
    obtain ⟨k, g⟩ := r
    by_cases hk : op = k
    · subst hk
      simp only [List.lookup_cons, beq_self_eq_true, Option.some.injEq] at h
      exact h ▸ List.mem_cons_self
    · simp only [List.lookup_cons, beq_eq_false_iff_ne.mpr hk] at h
      exact List.mem_cons_of_mem _ (ih h)

/-- The decoder reads back the encoding of any instruction, well-formed or not, and leaves the bytes after it. -/
theorem decode_encode_append (i : Instr) (rest : List Byte) : decode (encode i ++ rest) = .ok (i, rest) := by
  cases i <;> rfl

/-- With the default map, `some`, decoding with a map is decoding. -/
@[simp] theorem decodeWith_some (bs : List Byte) : decodeWith some bs = decode bs := by
  rcases bs with _ | ⟨op, _ | ⟨a, _ | ⟨b, rest⟩⟩⟩
  · rfl
  all_goals
    simp only [decodeWith, decode]
    cases opcodeForm op with
    | none => rfl
    | some f => cases f <;> rfl

/-- What decoding with a map answers: the map gives the opcode byte the instruction's row, and its operands follow. -/
theorem decodeWith_ok {m : Byte → Option Byte} {bs rest : List Byte} {i : Instr} (h : decodeWith m bs = .ok (i, rest)) :
    ∃ op row tl, bs = op :: tl ∧ m op = some row ∧ decode (row :: tl) = .ok (i, rest) := by
  rcases bs with _ | ⟨op, tl⟩
  · cases h
  simp only [decodeWith] at h
  split at h
  · cases h
  · rename_i row hr
    refine ⟨op, row, tl, rfl, hr, ?_⟩
    cases hd : decode (row :: tl) with
    | error e => rw [hd] at h; cases h
    | ok v => rw [hd] at h; cases h; rfl

theorem opOperandCount_opcode (i : Instr) : opOperandCount i.opcode = i.operands.length := by
  cases i <;> simp [opOperandCount, Instr.opcode, Instr.operands]

/-- The register operand bytes are among the operand bytes. -/
theorem regOperands_subset_operands (i : Instr) : i.regOperands ⊆ i.operands := by
  cases i <;> simp [Instr.regOperands, Instr.operands]

end Sys2Proof
end

