-- ==== Sys2Proof/Laws/Memory.lean ====
section
/-! SUPPORT. Memory: read after write, and that every operation keeps the canonical form. -/

namespace Sys2Proof.Machine

theorem Memory.read_nil (a : Nat) : Memory.read [] a = Memory.unlisted := rfl

theorem Memory.read_cons (k : Nat) (v : Byte) (m : Memory) (a : Nat) :
    Memory.read ((k, v) :: m) a = if k = a then v else Memory.read m a := rfl

/-- Below the first address a canonical memory lists, it reads as unlisted. -/
theorem Memory.read_below {lo a : Nat} {m : Memory} (h : Memory.wfFrom lo m = true) (ha : a < lo) :
    m.read a = Memory.unlisted := by
  induction m generalizing lo with
  | nil => rfl
  | cons c m ih =>
    obtain ⟨k, v⟩ := c
    simp only [Memory.wfFrom, Bool.and_eq_true, decide_eq_true_eq] at h
    rw [Memory.read_cons, if_neg (by omega)]
    exact ih h.2 (by omega)

theorem Memory.wfFrom_mono {lo lo' : Nat} {m : Memory} (h : Memory.wfFrom lo m = true) (hl : lo' ≤ lo) :
    Memory.wfFrom lo' m = true := by
  cases m with
  | nil => rfl
  | cons c m =>
    obtain ⟨k, v⟩ := c
    simp only [Memory.wfFrom, Bool.and_eq_true, decide_eq_true_eq] at h ⊢
    exact ⟨⟨⟨by omega, h.1.1.2⟩, h.1.2⟩, h.2⟩

/-- A write keeps the canonical form. -/
theorem Memory.wfFrom_write {lo a : Nat} {m : Memory} (v : Byte) (h : Memory.wfFrom lo m = true) (hlo : lo ≤ a)
    (ha : a < Config.memSize) : Memory.wfFrom lo (m.write a v) = true := by
  induction m generalizing lo with
  | nil => by_cases hv : v = Memory.unlisted <;> simp [Memory.write, Memory.wfFrom, hv, hlo, ha]
  | cons c m ih =>
    obtain ⟨k, w⟩ := c
    have h' := h
    simp only [Memory.wfFrom, Bool.and_eq_true, decide_eq_true_eq] at h'
    obtain ⟨⟨⟨h1, h2⟩, h3⟩, h4⟩ := h'
    unfold Memory.write
    by_cases hak : a < k
    · by_cases hv : v = Memory.unlisted
      · simpa [hak, hv] using h
      · simp [hak, hv, Memory.wfFrom, hlo, ha, h2, h3, h4]
    · by_cases hek : a = k
      · subst hek
        by_cases hv : v = Memory.unlisted
        · simpa [hv] using Memory.wfFrom_mono h4 (by omega)
        · simp [hv, Memory.wfFrom, h1, h2, h4]
      · simp only [hak, hek, if_false, Memory.wfFrom, Bool.and_eq_true, decide_eq_true_eq]
        exact ⟨⟨⟨h1, h2⟩, h3⟩, ih h4 (by omega)⟩

/-- A write inside the address space keeps the canonical form (10_state.md R49). -/
theorem Memory.wf_write {a : Nat} {m : Memory} (v : Byte) (h : m.wf = true) (ha : a < Config.memSize) :
    (m.write a v).wf = true :=
  Memory.wfFrom_write v h (Nat.zero_le _) ha

theorem Memory.wf_nil : Memory.wf [] = true := rfl

/-- Read after write in a canonical memory (20_memory.md R70). -/
theorem Memory.read_write_from {lo : Nat} {m : Memory} (a : Nat) (v : Byte) (b : Nat) (h : Memory.wfFrom lo m = true) :
    (m.write a v).read b = if b = a then v else m.read b := by
  induction m generalizing lo with
  | nil =>
    by_cases hv : v = Memory.unlisted <;> by_cases hb : b = a <;>
      simp [Memory.write, Memory.read, hv, hb, Ne.symm]
  | cons c m ih =>
    obtain ⟨k, w⟩ := c
    simp only [Memory.wfFrom, Bool.and_eq_true, decide_eq_true_eq] at h
    obtain ⟨⟨⟨h1, h2⟩, h3⟩, h4⟩ := h
    unfold Memory.write
    by_cases hak : a < k
    · have hr : Memory.read m a = Memory.unlisted := Memory.read_below h4 (by omega)
      by_cases hv : v = Memory.unlisted
      · by_cases hb : b = a
        · subst hb
          simp [hak, hv, Memory.read_cons, hr, show k ≠ b by omega]
        · simp [hak, hv, hb]
      · by_cases hb : b = a
        · simp [hak, hv, Memory.read_cons, hb]
        · simp [hak, hv, Memory.read_cons, hb, Ne.symm hb]
    · by_cases hek : a = k
      · subst hek
        have hr : Memory.read m a = Memory.unlisted := Memory.read_below h4 (by omega)
        by_cases hv : v = Memory.unlisted
        · by_cases hb : b = a
          · simp [hv, hb, hr]
          · simp [hv, Memory.read_cons, hb, Ne.symm hb]
        · by_cases hb : b = a
          · simp [hv, Memory.read_cons, hb]
          · simp [hv, Memory.read_cons, hb, Ne.symm hb]
      · simp only [hak, hek, if_false, Memory.read_cons]
        rw [ih h4]
        by_cases hb : b = a
        · subst hb; simp [Ne.symm hek]
        · simp [hb]

theorem Memory.read_write {m : Memory} (a : Nat) (v : Byte) (b : Nat) (h : m.wf = true) :
    (m.write a v).read b = if b = a then v else m.read b :=
  Memory.read_write_from a v b h

/-- Writing successive bytes inside the address space keeps the canonical form. -/
theorem Memory.wf_writeBytes {m : Memory} (vs : List Byte) {a : Nat} (h : m.wf = true)
    (ha : a + vs.length ≤ Config.memSize) : (m.writeBytes a vs).wf = true := by
  induction vs generalizing m a with
  | nil => exact h
  | cons v vs ih =>
    simp only [List.length_cons] at ha
    exact ih (Memory.wf_write v h (by omega)) (by omega)

/-- Reading after writing successive bytes: the written byte in the range, the old one outside. -/
theorem Memory.read_writeBytes {m : Memory} (vs : List Byte) {a : Nat} (b : Nat) (h : m.wf = true)
    (ha : a + vs.length ≤ Config.memSize) :
    (m.writeBytes a vs).read b = if a ≤ b then vs.getD (b - a) (m.read b) else m.read b := by
  induction vs generalizing m a with
  | nil => simp [Memory.writeBytes]
  | cons v vs ih =>
    simp only [List.length_cons] at ha
    rw [Memory.writeBytes, ih (Memory.wf_write v h (by omega)) (by omega), Memory.read_write a v b h]
    by_cases hab : a ≤ b
    · by_cases he : b = a
      · subst he; simp
      · obtain ⟨k, hk⟩ : ∃ k, b - a = k + 1 := ⟨b - a - 1, by omega⟩
        have hk' : b - (a + 1) = k := by omega
        simp [hab, he, show a + 1 ≤ b by omega, hk, hk']
    · simp [hab, show ¬ a + 1 ≤ b by omega, show b ≠ a by omega]

theorem Memory.fits_ofFn (f : Nat → Byte) : 0 + ((List.range Config.memSize).map f).length ≤ Config.memSize := by
  rw [List.length_map, List.length_range, Nat.zero_add]

theorem Memory.wf_ofFn (f : Nat → Byte) : (Memory.ofFn f).wf = true := by
  unfold Memory.ofFn
  exact Memory.wf_writeBytes _ Memory.wf_nil (Memory.fits_ofFn f)

/-- The memory made from a function reads as it inside the address space. -/
theorem Memory.read_ofFn (f : Nat → Byte) {a : Nat} (ha : a < Config.memSize) : (Memory.ofFn f).read a = f a := by
  unfold Memory.ofFn
  rw [Memory.read_writeBytes _ _ Memory.wf_nil (Memory.fits_ofFn f)]
  simp [List.getD_eq_getElem?_getD, ha]

end Sys2Proof.Machine
end

