-- ==== Sys2Proof/Laws/State.lean ====
section
/-! SUPPORT. One lemma per field of the state per update, so that no later proof unfolds a record update. -/

namespace Sys2Proof.Machine

/-- Reading a register after writing one (10_state.md R30). -/
theorem State.reg_setReg (s : State) (r q : RegIx) (v : Byte) :
    (s.setReg r v).reg q = if q = r then v else s.reg q := by
  simp [State.setReg, State.reg, Vector.getElem_set, Fin.ext_iff, eq_comm]

@[simp] theorem State.reg_setReg_same (s : State) (r : RegIx) (v : Byte) : (s.setReg r v).reg r = v := by
  simp [State.reg_setReg]

theorem State.reg_setReg_of_ne (s : State) {r q : RegIx} (v : Byte) (h : q ≠ r) : (s.setReg r v).reg q = s.reg q := by
  simp [State.reg_setReg, h]

@[simp] theorem State.setReg_pc (s : State) (r : RegIx) (v : Byte) : (s.setReg r v).pc = s.pc := rfl
@[simp] theorem State.setReg_fl (s : State) (r : RegIx) (v : Byte) : (s.setReg r v).fl = s.fl := rfl
@[simp] theorem State.setReg_mem (s : State) (r : RegIx) (v : Byte) : (s.setReg r v).mem = s.mem := rfl
@[simp] theorem State.setReg_run (s : State) (r : RegIx) (v : Byte) : (s.setReg r v).run = s.run := rfl
@[simp] theorem State.setReg_timerDue (s : State) (r : RegIx) (v : Byte) : (s.setReg r v).timerDue = s.timerDue := rfl
@[simp] theorem State.setReg_trace (s : State) (r : RegIx) (v : Byte) : (s.setReg r v).trace = s.trace := rfl
@[simp] theorem State.setReg_inputs (s : State) (r : RegIx) (v : Byte) : (s.setReg r v).inputs = s.inputs := rfl
@[simp] theorem State.setReg_cycle (s : State) (r : RegIx) (v : Byte) : (s.setReg r v).cycle = s.cycle := rfl

@[simp] theorem State.setPc_pc (s : State) (v : PcWord) : (s.setPc v).pc = v := rfl
@[simp] theorem State.setPc_fl (s : State) (v : PcWord) : (s.setPc v).fl = s.fl := rfl
@[simp] theorem State.setPc_mem (s : State) (v : PcWord) : (s.setPc v).mem = s.mem := rfl
@[simp] theorem State.setPc_run (s : State) (v : PcWord) : (s.setPc v).run = s.run := rfl
@[simp] theorem State.setPc_timerDue (s : State) (v : PcWord) : (s.setPc v).timerDue = s.timerDue := rfl
@[simp] theorem State.setPc_trace (s : State) (v : PcWord) : (s.setPc v).trace = s.trace := rfl
@[simp] theorem State.setPc_inputs (s : State) (v : PcWord) : (s.setPc v).inputs = s.inputs := rfl
@[simp] theorem State.setPc_cycle (s : State) (v : PcWord) : (s.setPc v).cycle = s.cycle := rfl
@[simp] theorem State.setPc_reg (s : State) (v : PcWord) (q : RegIx) : (s.setPc v).reg q = s.reg q := rfl

@[simp] theorem State.setFl_pc (s : State) (v : Byte) : (s.setFl v).pc = s.pc := rfl
@[simp] theorem State.setFl_fl (s : State) (v : Byte) : (s.setFl v).fl = v := rfl
@[simp] theorem State.setFl_mem (s : State) (v : Byte) : (s.setFl v).mem = s.mem := rfl
@[simp] theorem State.setFl_run (s : State) (v : Byte) : (s.setFl v).run = s.run := rfl
@[simp] theorem State.setFl_timerDue (s : State) (v : Byte) : (s.setFl v).timerDue = s.timerDue := rfl
@[simp] theorem State.setFl_trace (s : State) (v : Byte) : (s.setFl v).trace = s.trace := rfl
@[simp] theorem State.setFl_inputs (s : State) (v : Byte) : (s.setFl v).inputs = s.inputs := rfl
@[simp] theorem State.setFl_cycle (s : State) (v : Byte) : (s.setFl v).cycle = s.cycle := rfl
@[simp] theorem State.setFl_reg (s : State) (v : Byte) (q : RegIx) : (s.setFl v).reg q = s.reg q := rfl

@[simp] theorem State.setMem_pc (s : State) (m : Memory) : (s.setMem m).pc = s.pc := rfl
@[simp] theorem State.setMem_fl (s : State) (m : Memory) : (s.setMem m).fl = s.fl := rfl
@[simp] theorem State.setMem_mem (s : State) (m : Memory) : (s.setMem m).mem = m := rfl
@[simp] theorem State.setMem_run (s : State) (m : Memory) : (s.setMem m).run = s.run := rfl
@[simp] theorem State.setMem_timerDue (s : State) (m : Memory) : (s.setMem m).timerDue = s.timerDue := rfl
@[simp] theorem State.setMem_trace (s : State) (m : Memory) : (s.setMem m).trace = s.trace := rfl
@[simp] theorem State.setMem_inputs (s : State) (m : Memory) : (s.setMem m).inputs = s.inputs := rfl
@[simp] theorem State.setMem_cycle (s : State) (m : Memory) : (s.setMem m).cycle = s.cycle := rfl
@[simp] theorem State.setMem_reg (s : State) (m : Memory) (q : RegIx) : (s.setMem m).reg q = s.reg q := rfl

@[simp] theorem State.setRun_pc (s : State) (r : RunState) : (s.setRun r).pc = s.pc := rfl
@[simp] theorem State.setRun_fl (s : State) (r : RunState) : (s.setRun r).fl = s.fl := rfl
@[simp] theorem State.setRun_mem (s : State) (r : RunState) : (s.setRun r).mem = s.mem := rfl
@[simp] theorem State.setRun_run (s : State) (r : RunState) : (s.setRun r).run = r := rfl
@[simp] theorem State.setRun_timerDue (s : State) (r : RunState) : (s.setRun r).timerDue = s.timerDue := rfl
@[simp] theorem State.setRun_trace (s : State) (r : RunState) : (s.setRun r).trace = s.trace := rfl
@[simp] theorem State.setRun_inputs (s : State) (r : RunState) : (s.setRun r).inputs = s.inputs := rfl
@[simp] theorem State.setRun_cycle (s : State) (r : RunState) : (s.setRun r).cycle = s.cycle := rfl
@[simp] theorem State.setRun_reg (s : State) (r : RunState) (q : RegIx) : (s.setRun r).reg q = s.reg q := rfl

@[simp] theorem State.setTimerDue_pc (s : State) (b : Bool) : (s.setTimerDue b).pc = s.pc := rfl
@[simp] theorem State.setTimerDue_fl (s : State) (b : Bool) : (s.setTimerDue b).fl = s.fl := rfl
@[simp] theorem State.setTimerDue_mem (s : State) (b : Bool) : (s.setTimerDue b).mem = s.mem := rfl
@[simp] theorem State.setTimerDue_run (s : State) (b : Bool) : (s.setTimerDue b).run = s.run := rfl
@[simp] theorem State.setTimerDue_timerDue (s : State) (b : Bool) : (s.setTimerDue b).timerDue = b := rfl
@[simp] theorem State.setTimerDue_trace (s : State) (b : Bool) : (s.setTimerDue b).trace = s.trace := rfl
@[simp] theorem State.setTimerDue_inputs (s : State) (b : Bool) : (s.setTimerDue b).inputs = s.inputs := rfl
@[simp] theorem State.setTimerDue_cycle (s : State) (b : Bool) : (s.setTimerDue b).cycle = s.cycle := rfl
@[simp] theorem State.setTimerDue_reg (s : State) (b : Bool) (q : RegIx) : (s.setTimerDue b).reg q = s.reg q := rfl

@[simp] theorem State.emit_pc (s : State) (e : OutEvent) : (s.emit e).pc = s.pc := rfl
@[simp] theorem State.emit_fl (s : State) (e : OutEvent) : (s.emit e).fl = s.fl := rfl
@[simp] theorem State.emit_mem (s : State) (e : OutEvent) : (s.emit e).mem = s.mem := rfl
@[simp] theorem State.emit_run (s : State) (e : OutEvent) : (s.emit e).run = s.run := rfl
@[simp] theorem State.emit_timerDue (s : State) (e : OutEvent) : (s.emit e).timerDue = s.timerDue := rfl
@[simp] theorem State.emit_trace (s : State) (e : OutEvent) : (s.emit e).trace = s.trace ++ [e] := rfl
@[simp] theorem State.emit_inputs (s : State) (e : OutEvent) : (s.emit e).inputs = s.inputs := rfl
@[simp] theorem State.emit_cycle (s : State) (e : OutEvent) : (s.emit e).cycle = s.cycle := rfl
@[simp] theorem State.emit_reg (s : State) (e : OutEvent) (q : RegIx) : (s.emit e).reg q = s.reg q := rfl

/-- Two states are equal when every field and every register is. -/
theorem State.ext_reg {s t : State} (hr : ∀ r, s.reg r = t.reg r) (hpc : s.pc = t.pc) (hfl : s.fl = t.fl)
    (hm : s.mem = t.mem) (hrun : s.run = t.run) (hd : s.timerDue = t.timerDue) (ht : s.trace = t.trace)
    (hi : s.inputs = t.inputs) (hc : s.cycle = t.cycle) : s = t := by
  obtain ⟨rs, _, _, _, _, _, _, _, _⟩ := s
  obtain ⟨rt, _, _, _, _, _, _, _, _⟩ := t
  have h : rs = rt := Vector.ext fun i hi' => hr ⟨i, hi'⟩
  simp_all

end Sys2Proof.Machine
end

