-- ==== Sys2Proof/Laws/Ops.lean ====
section
/-! SUPPORT. One lemma for each shared operation that says what it answers. -/

namespace Sys2Proof.Machine

/-! ### Operands -/

/-- Every register has its operand byte (30_encoding.md R83). -/
@[simp] theorem reg_regByte (r : RegIx) : reg (regByte r) = .ok r := by
  have h : (regByte r).toNat = r.val := by simp [regByte]; omega
  simp [reg, h]

/-- An operand byte of 8 or more names no register (30_encoding.md R83). -/
theorem reg_bad {o : Byte} (h : 8 ≤ o.toNat) : reg o = .error { kind := .invalidRegister } := by
  simp [reg, Nat.not_lt.mpr h]

/-- `reg` answers a register exactly on that register's operand byte. -/
theorem reg_eq_ok {o : Byte} {r : RegIx} (h : reg o = .ok r) : o = regByte r := by
  unfold reg at h
  split at h
  · cases h; exact BitVec.eq_of_toNat_eq (by simp [regByte])
  · cases h

/-- The only fault of `reg` is InvalidRegister. -/
theorem reg_eq_error {o : Byte} {f : FaultInfo} (h : reg o = .error f) :
    8 ≤ o.toNat ∧ f = { kind := .invalidRegister } := by
  unfold reg at h
  split at h
  · cases h
  · cases h; exact ⟨by omega, rfl⟩

theorem regByte_injective {r q : RegIx} (h : regByte r = regByte q) : r = q := by
  have := reg_regByte r
  rw [h, reg_regByte] at this
  exact (Except.ok.inj this).symm

/-! ### Memory access -/

/-- A byte is an address of memory (20_memory.md R65). -/
@[simp] theorem memRead_byte (s : State) (b : Byte) : memRead s b.toNat = .ok (s.mem.read b.toNat) := by
  simp [memRead, b.isLt]

@[simp] theorem memWrite_byte (s : State) (b v : Byte) :
    memWrite s b.toNat v = .ok (s.setMem (s.mem.write b.toNat v)) := by
  simp [memWrite, b.isLt]

/-! ### The stack -/

theorem toNat_pred {b : Byte} (h : b ≠ 0) : (b - 1).toNat = b.toNat - 1 := by bv_omega

theorem toNat_succ {b : Byte} (h : b ≠ 255) : (b + 1).toNat = b.toNat + 1 := by bv_omega

theorem decSp_ok {s : State} (h : s.reg SP ≠ 0) : decSp s = .ok (s.setReg SP (s.reg SP - 1)) :=
  if_neg h

theorem decSp_zero {s : State} (h : s.reg SP = 0) :
    decSp s = .error { kind := .addressOutOfRange, addr := some (-1) } :=
  if_pos h

theorem incSp_ok {s : State} (h : s.reg SP ≠ 255) : incSp s = .ok (s.setReg SP (s.reg SP + 1)) :=
  if_neg h

theorem incSp_top {s : State} (h : s.reg SP = 255) :
    incSp s = .error { kind := .addressOutOfRange, addr := some 256 } :=
  if_pos h

/-- A push with SP above 0 writes below SP and moves it there (41_control_flow.md R140). -/
theorem pushByte_ok {s : State} (v : Byte) (h : s.reg SP ≠ 0) :
    pushByte v s = .ok ((s.setReg SP (s.reg SP - 1)).setMem (s.mem.write (s.reg SP - 1).toNat v)) := by
  simp [pushByte, decSp_ok h, bind, Except.bind, -BitVec.toNat_sub]

theorem pushByte_zero {s : State} (v : Byte) (h : s.reg SP = 0) :
    pushByte v s = .error { kind := .addressOutOfRange, addr := some (-1) } := by
  simp [pushByte, decSp_zero h, bind, Except.bind]

/-- A pop with SP below 255 reads at SP and moves it up (41_control_flow.md R140). -/
theorem popByte_ok {s : State} (h : s.reg SP ≠ 255) :
    popByte s = .ok (s.mem.read (s.reg SP).toNat, s.setReg SP (s.reg SP + 1)) := by
  simp [popByte, incSp_ok h, bind, Except.bind, pure, Except.pure]

theorem popByte_top {s : State} (h : s.reg SP = 255) :
    popByte s = .error { kind := .addressOutOfRange, addr := some 256 } := by
  simp only [popByte, memRead_byte, incSp_top h, bind, Except.bind]

/-- What a push that answers a state has done (41_control_flow.md R140). -/
theorem pushByte_inv {v : Byte} {s t : State} (h : pushByte v s = .ok t) :
    s.reg SP ≠ 0 ∧ t = (s.setReg SP (s.reg SP - 1)).setMem (s.mem.write (s.reg SP - 1).toNat v) := by
  by_cases h0 : s.reg SP = 0
  · rw [pushByte_zero v h0] at h; cases h
  · rw [pushByte_ok v h0] at h; exact ⟨h0, (Except.ok.inj h).symm⟩

/-- What a pop that answers a state has done (41_control_flow.md R140). -/
theorem popByte_inv {v : Byte} {s t : State} (h : popByte s = .ok (v, t)) :
    s.reg SP ≠ 255 ∧ v = s.mem.read (s.reg SP).toNat ∧ t = s.setReg SP (s.reg SP + 1) := by
  by_cases h0 : s.reg SP = 255
  · rw [popByte_top h0] at h; cases h
  · rw [popByte_ok h0] at h; cases h; exact ⟨h0, rfl, rfl⟩

theorem decSp_inv {s t : State} (h : decSp s = .ok t) : s.reg SP ≠ 0 ∧ t = s.setReg SP (s.reg SP - 1) := by
  by_cases h0 : s.reg SP = 0
  · rw [decSp_zero h0] at h; cases h
  · rw [decSp_ok h0] at h; exact ⟨h0, (Except.ok.inj h).symm⟩

theorem incSp_inv {s t : State} (h : incSp s = .ok t) : s.reg SP ≠ 255 ∧ t = s.setReg SP (s.reg SP + 1) := by
  by_cases h0 : s.reg SP = 255
  · rw [incSp_top h0] at h; cases h
  · rw [incSp_ok h0] at h; exact ⟨h0, (Except.ok.inj h).symm⟩

/-- The states agree but for SP and memory, which stays canonical: what pushing leaves (60_exceptions.md R216). -/
structure AgreeButStack (s t : State) : Prop where
  reg : ∀ r, r ≠ SP → t.reg r = s.reg r
  pc : t.pc = s.pc
  fl : t.fl = s.fl
  run : t.run = s.run
  timerDue : t.timerDue = s.timerDue
  trace : t.trace = s.trace
  wf : s.mem.wf = true → t.mem.wf = true

theorem AgreeButStack.trans {s t u : State} (h : AgreeButStack s t) (k : AgreeButStack t u) : AgreeButStack s u where
  reg r hr := (k.reg r hr).trans (h.reg r hr)
  pc := k.pc.trans h.pc
  fl := k.fl.trans h.fl
  run := k.run.trans h.run
  timerDue := k.timerDue.trans h.timerDue
  trace := k.trace.trans h.trace
  wf hw := k.wf (h.wf hw)

theorem pushByte_frame {v : Byte} {s t : State} (h : pushByte v s = .ok t) : AgreeButStack s t := by
  obtain ⟨_, rfl⟩ := pushByte_inv h
  exact ⟨fun r hr => State.reg_setReg_of_ne s _ hr, rfl, rfl, rfl, rfl, rfl,
    fun hw => Memory.wf_write v hw (s.reg SP - 1).isLt⟩

theorem pushRegs_frame {rs : List RegIx} {s t : State} (h : pushRegs rs s = .ok t) : AgreeButStack s t := by
  induction rs generalizing s with
  | nil => cases h; exact ⟨fun _ _ => rfl, rfl, rfl, rfl, rfl, rfl, id⟩
  | cons r rs ih =>
    simp only [pushRegs, bind, Except.bind] at h
    split at h
    · cases h
    · rename_i s1 h1; exact (pushByte_frame h1).trans (ih h)

/-- The states agree but for registers: what popping leaves (43_interrupt_return.md R190). -/
structure AgreeButRegs (s t : State) : Prop where
  mem : t.mem = s.mem
  pc : t.pc = s.pc
  fl : t.fl = s.fl
  run : t.run = s.run
  timerDue : t.timerDue = s.timerDue
  trace : t.trace = s.trace

theorem popRegs_frame {rs : List RegIx} {s t : State} (h : popRegs rs s = .ok t) : AgreeButRegs s t := by
  induction rs generalizing s with
  | nil => cases h; exact ⟨rfl, rfl, rfl, rfl, rfl, rfl⟩
  | cons r rs ih =>
    simp only [popRegs, bind, Except.bind] at h
    split at h
    · cases h
    · rename_i x h1
      obtain ⟨v, s1⟩ := x
      obtain ⟨_, _, rfl⟩ := popByte_inv h1
      have k := ih h
      exact ⟨k.mem, k.pc, k.fl, k.run, k.timerDue, k.trace⟩

/-- Pushing registers with room below SP (60_exceptions.md R216): SP moves down by their number, and each byte lies where
its push put it. -/
theorem pushRegs_ok {rs : List RegIx} {s : State} (hroom : rs.length ≤ (s.reg SP).toNat) (hsp : SP ∉ rs)
    (hwf : s.mem.wf = true) :
    ∃ t, pushRegs rs s = .ok t ∧ (t.reg SP).toNat = (s.reg SP).toNat - rs.length ∧
      (∀ k (hk : k < rs.length), t.mem.read ((s.reg SP).toNat - 1 - k) = s.reg rs[k]) ∧
      ∀ a, a < (s.reg SP).toNat - rs.length ∨ (s.reg SP).toNat ≤ a → t.mem.read a = s.mem.read a := by
  induction rs generalizing s with
  | nil => exact ⟨s, rfl, by simp, by simp, fun _ _ => rfl⟩
  | cons r rs ih =>
    simp only [List.length_cons, List.mem_cons, not_or] at hroom hsp
    have h0 : s.reg SP ≠ 0 := by
      intro h; rw [h] at hroom; simp at hroom
    have hsub : (s.reg SP - 1).toNat = (s.reg SP).toNat - 1 := toNat_pred h0
    have hp := pushByte_ok (s.reg r) h0
    have hw := Memory.wf_write (s.reg r) hwf (s.reg SP - 1).isLt
    obtain ⟨t, ht, htsp, htr, hto⟩ := ih (s := (s.setReg SP (s.reg SP - 1)).setMem _)
      (by rw [State.setMem_reg, State.reg_setReg_same, hsub]; omega) hsp.2 hw
    simp only [State.setMem_reg, State.reg_setReg_same, hsub, State.setMem_mem] at htsp htr hto
    refine ⟨t, by simp only [pushRegs, bind, Except.bind, hp, ht], by rw [htsp, List.length_cons]; omega, ?_, ?_⟩
    · intro k hk
      cases k with
      | zero =>
        rw [hto _ (.inr (by omega)), Memory.read_write _ _ _ hwf, if_pos (by omega)]
        rfl
      | succ k =>
        simp only [List.length_cons] at hk
        rw [show (s.reg SP).toNat - 1 - (k + 1) = (s.reg SP).toNat - 1 - 1 - k by omega, htr k (by omega)]
        rw [State.reg_setReg_of_ne]
        · rfl
        · intro h; exact hsp.2 (h ▸ List.getElem_mem _)
    · intro a ha
      simp only [List.length_cons] at ha
      rw [hto a (by omega), Memory.read_write _ _ _ hwf, if_neg (by omega)]

/-- Popping distinct registers with bytes above SP (43_interrupt_return.md R190): SP moves up by their number, and each
register holds the byte its pop read. -/
theorem popRegs_ok {rs : List RegIx} {s : State} (hroom : (s.reg SP).toNat + rs.length ≤ 255) (hsp : SP ∉ rs)
    (hnd : rs.Nodup) :
    ∃ t, popRegs rs s = .ok t ∧ (t.reg SP).toNat = (s.reg SP).toNat + rs.length ∧
      (∀ k (hk : k < rs.length), t.reg rs[k] = s.mem.read ((s.reg SP).toNat + k)) ∧
      ∀ r, r ∉ rs → r ≠ SP → t.reg r = s.reg r := by
  induction rs generalizing s with
  | nil => exact ⟨s, rfl, by simp, by simp, fun _ _ _ => rfl⟩
  | cons r rs ih =>
    simp only [List.length_cons, List.mem_cons, not_or] at hroom hsp
    obtain ⟨hr, hnd⟩ := List.nodup_cons.mp hnd
    have h0 : s.reg SP ≠ 255 := by
      intro h; rw [h] at hroom; simp at hroom
    have hadd : (s.reg SP + 1).toNat = (s.reg SP).toNat + 1 := toNat_succ h0
    have hset : ∀ v, ((s.setReg SP (s.reg SP + 1)).setReg r v).reg SP = s.reg SP + 1 := by
      intro v; rw [State.reg_setReg_of_ne _ _ hsp.1, State.reg_setReg_same]
    obtain ⟨t, ht, htsp, htr, hto⟩ := ih (s := (s.setReg SP (s.reg SP + 1)).setReg r (s.mem.read (s.reg SP).toNat))
      (by rw [hset, hadd]; omega) hsp.2 hnd
    simp only [hset, hadd, State.setReg_mem] at htsp htr
    refine ⟨t, by simp only [popRegs, bind, Except.bind, popByte_ok h0, ht], by rw [htsp, List.length_cons]; omega, ?_, ?_⟩
    · intro k hk
      cases k with
      | zero =>
        simp only [List.getElem_cons_zero, Nat.add_zero]
        rw [hto r hr (Ne.symm hsp.1), State.reg_setReg_same]
      | succ k =>
        simp only [List.length_cons] at hk
        simp only [List.getElem_cons_succ]
        rw [htr k (by omega), show (s.reg SP).toNat + 1 + k = (s.reg SP).toNat + (k + 1) by omega]
    · intro q hq hqs
      simp only [List.mem_cons, not_or] at hq
      rw [hto q hq.2 hqs, State.reg_setReg_of_ne _ _ hq.1, State.reg_setReg_of_ne _ _ hqs]

/-! ### Raising a fault -/

/-- What a state that has entered Faulted holds of the state before (60_exceptions.md R200). -/
theorem raiseFault_faultedFrom (s : State) (op : Option Byte) (f : FaultInfo) : (raiseFault s op f).FaultedFrom s op f :=
  ⟨rfl, rfl, rfl⟩

@[simp] theorem raiseFault_mem (s : State) (op : Option Byte) (f : FaultInfo) :
    (raiseFault s op f).mem = Memory.ofFn (Config.faultMem s.cycle) := by simp only [raiseFault]

@[simp] theorem raiseFault_pc (s : State) (op : Option Byte) (f : FaultInfo) :
    (raiseFault s op f).pc = BitVec.ofNat 9 (Config.faultPc s.cycle).val := rfl

@[simp] theorem raiseFault_run (s : State) (op : Option Byte) (f : FaultInfo) :
    (raiseFault s op f).run = .faulted { kind := f.kind, pc := s.pc, opcode := op, addr := f.addr, line := f.line } := rfl

@[simp] theorem raiseFault_trace (s : State) (op : Option Byte) (f : FaultInfo) : (raiseFault s op f).trace = s.trace := rfl

@[simp] theorem raiseFault_timerDue (s : State) (op : Option Byte) (f : FaultInfo) :
    (raiseFault s op f).timerDue = s.timerDue := rfl

theorem raiseFault_inv (s : State) (op : Option Byte) (f : FaultInfo) : (raiseFault s op f).Inv := by
  constructor
  · rw [raiseFault_mem]; exact Memory.wf_ofFn _
  · have := (Config.faultPc s.cycle).isLt
    rw [raiseFault_pc, BitVec.toNat_ofNat]
    omega

@[simp] theorem conclude_ok (s : State) (op : Byte) (t : State) : conclude s op (.ok t) = .next t := rfl

@[simp] theorem conclude_error (s : State) (op : Byte) (f : FaultInfo) :
    conclude s op (.error f) = .next (raiseFault s (some op) f) := rfl

/-- An instruction's answer is always a next state: its effect, or the Faulted state (60_exceptions.md R200). -/
theorem conclude_next {s t : State} {op : Byte} {r : Except FaultInfo State} (h : conclude s op r = .next t) :
    r = .ok t ∨ ∃ f, r = .error f ∧ t = raiseFault s (some op) f := by
  cases r with
  | ok u => left; cases h; rfl
  | error f => right; cases h; exact ⟨f, rfl, rfl⟩

/-! ### Interrupts -/

theorem lowestLine_eq_none {b : Byte} (h : b = 0) : lowestLine b = none := by subst h; rfl

/-- The line selected is pending, enabled, and the lowest such (60_exceptions.md R215). -/
theorem lowestLine_eq_some {b : Byte} {n : Line} (hn : b.getLsbD n = true) (hm : ∀ m < n, b.getLsbD m = false) :
    lowestLine b = some n := by
  fin_cases n <;> simp_all [lowestLine, List.find?, Fin.forall_fin_succ]

/-- The line found is the lowest set bit (60_exceptions.md R215). -/
theorem lowestLine_inv {b : Byte} {n : Line} (h : lowestLine b = some n) :
    b.getLsbD n = true ∧ ∀ m < n, b.getLsbD m = false := by
  have hn : b.getLsbD n = true := by simpa using List.find?_some h
  have hset : ∃ k : Line, b.getLsbD k = true := ⟨n, hn⟩
  have hmin : ∀ m < Fin.find (fun k : Line => b.getLsbD k = true) hset, b.getLsbD m = false := fun m hm => by
    simpa using Fin.find_min (p := fun k : Line => b.getLsbD k = true) hset hm
  have hfind := lowestLine_eq_some (Fin.find_spec (p := fun k : Line => b.getLsbD k = true) hset) hmin
  rw [h, Option.some.injEq] at hfind
  exact ⟨hn, hfind ▸ hmin⟩

theorem acknowledge_fields (n : Line) (s : State) : (acknowledge n s).pc = s.pc ∧ (acknowledge n s).fl = s.fl ∧
    (acknowledge n s).mem = s.mem ∧ (acknowledge n s).run = s.run ∧ (acknowledge n s).timerDue = s.timerDue ∧
    (acknowledge n s).trace = s.trace ∧ (acknowledge n s).reg IM = 0 ∧
    (acknowledge n s).reg IS = s.reg IS &&& ~~~((1 : Byte) <<< n.val) ∧
    ∀ r, r ≠ IM → r ≠ IS → (acknowledge n s).reg r = s.reg r := by
  refine ⟨rfl, rfl, rfl, rfl, rfl, rfl, ?_, ?_, ?_⟩
  · simp [acknowledge, State.reg_setReg, IM, IS]
  · simp [acknowledge, State.reg_setReg, IM, IS]
  · intro r h5 h6; simp [acknowledge, State.reg_setReg, h5, h6]

/-- Entering a handler with room on the stack (60_exceptions.md R216, R219): the frame bytes, and `pc` from the vector byte. -/
theorem enterHandler_ok (vec : Byte) (s : State)
    (hpc : s.pc.toNat ≤ 255) (hsp : 9 ≤ (s.reg SP).toNat) (hw : s.mem.wf = true) :
    ∃ t, enterHandler vec s = .ok t ∧ AgreeButStack s (t.setPc s.pc) ∧ (t.reg SP).toNat = (s.reg SP).toNat - 9 ∧
     t.mem.read ((s.reg SP).toNat - 1) = s.pc.setWidth 8 ∧ t.mem.read ((s.reg SP).toNat - 2) = s.fl ∧
     (∀ k (hk : k < 7), t.mem.read ((s.reg SP).toNat - 3 - k) = s.reg ⟨k, by omega⟩) ∧
     (∀ a, a < (s.reg SP).toNat - 9 ∨ (s.reg SP).toNat ≤ a → t.mem.read a = s.mem.read a) ∧ t.pc = toPc (t.mem.read vec.toNat) := by
  have h0 : s.reg SP ≠ 0 := by intro h; rw [h] at hsp; simp at hsp
  have e1 := toNat_pred h0
  have h1 : s.reg SP - 1 ≠ 0 := by intro h; rw [h] at e1; simp at e1; omega
  have e2 := toNat_pred h1
  let s1 := (s.setReg SP (s.reg SP - 1)).setMem (s.mem.write (s.reg SP - 1).toNat (s.pc.setWidth 8))
  have p1 : pushByte (s.pc.setWidth 8) s = .ok s1 := pushByte_ok _ h0
  have r1 : s1.reg SP = s.reg SP - 1 := State.reg_setReg_same s SP _
  have w1 : s1.mem.wf = true := Memory.wf_write _ hw (s.reg SP - 1).isLt
  let s2 := (s1.setReg SP (s1.reg SP - 1)).setMem (s1.mem.write (s1.reg SP - 1).toNat s1.fl)
  have p2 : pushByte s1.fl s1 = .ok s2 := pushByte_ok _ (by rw [r1]; exact h1)
  have r2 : s2.reg SP = s1.reg SP - 1 := State.reg_setReg_same s1 SP _
  have w2 : s2.mem.wf = true := Memory.wf_write _ w1 (s1.reg SP - 1).isLt
  have n2 : (s2.reg SP).toNat = (s.reg SP).toNat - 2 := by rw [r2, r1, e2, e1]; omega
  have hl : savedRegs.length = 7 := rfl
  obtain ⟨t, ht, hs, hr, ho⟩ := pushRegs_ok (rs := savedRegs) (s := s2) (by rw [n2, hl]; omega) (by decide) w2
  rw [hl, n2] at hs ho
  rw [n2] at hr
  refine ⟨t.setPc (toPc (t.mem.read vec.toNat)), ?_, ?_, ?_, ?_, ?_, ?_, ?_, rfl⟩
  · unfold enterHandler
    rw [if_neg (by omega)]
    simp only [bind, Except.bind, p1, p2, ht, memRead_byte]; rfl
  · have k := ((pushByte_frame p1).trans (pushByte_frame p2)).trans (pushRegs_frame ht)
    exact ⟨k.reg, rfl, k.fl, k.run, k.timerDue, k.trace, k.wf⟩
  · rw [State.setPc_reg, hs]; omega
  · rw [State.setPc_mem, ho _ (.inr (by omega))]
    show (s1.mem.write _ _).read _ = _
    rw [Memory.read_write _ _ _ w1, if_neg (by rw [r1, e2, e1]; omega)]
    show (s.mem.write _ _).read _ = _
    rw [Memory.read_write _ _ _ hw, if_pos e1.symm]
  · rw [State.setPc_mem, ho _ (.inr (by omega))]
    show (s1.mem.write _ _).read _ = _
    rw [Memory.read_write _ _ _ w1, if_pos (by rw [r1, e2, e1]; omega)]
    rfl
  · intro k hk
    have := hr k (by rw [hl]; exact hk)
    rw [State.setPc_mem, show (s.reg SP).toNat - 3 - k = (s.reg SP).toNat - 2 - 1 - k by omega, this]
    have hg : savedRegs[k]'(by rw [hl]; exact hk) = (⟨k, by omega⟩ : RegIx) := by
      interval_cases k <;> rfl
    rw [hg]
    have hne : (⟨k, by omega⟩ : RegIx) ≠ SP := by intro h; have := congrArg Fin.val h; simp [SP] at this; omega
    show (s1.setReg SP _).reg _ = _
    rw [State.reg_setReg_of_ne _ _ hne]
    exact State.reg_setReg_of_ne s _ hne
  · intro a ha
    rw [State.setPc_mem, ho a (by omega)]
    show (s1.mem.write _ _).read _ = _
    rw [Memory.read_write _ _ _ w1, if_neg (by rw [r1, e2, e1]; omega)]
    show (s.mem.write _ _).read _ = _
    rw [Memory.read_write _ _ _ hw, if_neg (by omega)]

/-- Entering a handler changes, but for the stack, only `pc`, which becomes a byte (60_exceptions.md R216). -/
theorem enterHandler_frame {vec : Byte} {s t : State} (h : enterHandler vec s = .ok t) :
    AgreeButStack s (t.setPc s.pc) ∧ ∃ b : Byte, t.pc = toPc b := by
  simp only [enterHandler, bind, Except.bind] at h
  split at h
  · cases h
  split at h
  · cases h
  rename_i s1 h1
  split at h
  · cases h
  rename_i s2 h2
  split at h
  · cases h
  rename_i s3 h3
  rw [memRead_byte] at h
  cases h
  have k := ((pushByte_frame h1).trans (pushByte_frame h2)).trans (pushRegs_frame h3)
  exact ⟨⟨k.reg, rfl, k.fl, k.run, k.timerDue, k.trace, k.wf⟩, _, rfl⟩

/-- A dispatch that completes acknowledges its line and enters the handler (60_exceptions.md R216). -/
theorem dispatch_inv {p : Config.Params} {n : Line} {s t : State} (h : dispatch p n s = .ok t) :
    ∃ vec, vectorAddress p n = .ok vec ∧ enterHandler vec (acknowledge n s) = .ok t := by
  simp only [dispatch, bind, Except.bind] at h
  split at h
  · cases h
  · exact ⟨_, ‹_›, h⟩

/-- What a dispatch that answers a state leaves of the state before (60_exceptions.md R216): IM is 0, FL, the run state, the
timer and the trace are as before, and so is every register but IM, IS and SP; `pc` is a byte. -/
theorem dispatch_frame {p : Config.Params} {n : Line} {s t : State} (h : dispatch p n s = .ok t) :
    t.fl = s.fl ∧ t.run = s.run ∧ t.timerDue = s.timerDue ∧ t.trace = s.trace ∧ t.reg IM = 0 ∧
      (∀ r, r ≠ IM → r ≠ IS → r ≠ SP → t.reg r = s.reg r) ∧ (s.mem.wf = true → t.mem.wf = true) ∧
      ∃ b : Byte, t.pc = toPc b := by
  obtain ⟨vec, -, he⟩ := dispatch_inv h
  obtain ⟨k, hpc⟩ := enterHandler_frame he
  obtain ⟨_, hfl, hm, hr, hd, ht, him, _, hreg⟩ := acknowledge_fields n s
  refine ⟨k.fl.trans hfl, k.run.trans hr, k.timerDue.trans hd, k.trace.trans ht, ?_, ?_, ?_, hpc⟩
  · exact (k.reg IM (by decide)).trans him
  · intro r h5 h6 h7
    exact (k.reg r h7).trans (hreg r h5 h6)
  · intro hw; exact k.wf (hm ▸ hw)

/-- A dispatch that completes clears the dispatched bit of IS and no other (60_exceptions.md R216). -/
theorem dispatch_is {p : Config.Params} {n : Line} {s t : State} (h : dispatch p n s = .ok t) :
    t.reg IS = s.reg IS &&& ~~~((1 : Byte) <<< n.val) := by
  obtain ⟨vec, -, he⟩ := dispatch_inv h
  obtain ⟨_, _, _, _, _, _, _, his, _⟩ := acknowledge_fields n s
  exact ((enterHandler_frame he).1.reg IS (by decide)).trans his

/-- Serving the poll: nothing is dispatched, or a line is, and the frame of the dispatch holds. -/
theorem pollDispatch_frame {p : Config.Params} {s t : State} (h : pollDispatch p s = .ok t) :
    t = s ∨ ∃ n, selectLine s = some n ∧ dispatch p n s = .ok t := by
  unfold pollDispatch at h
  split at h
  · cases h; exact .inl rfl
  · rename_i n hn; exact .inr ⟨n, hn, h⟩

end Sys2Proof.Machine
end

