-- ==== Sys2Proof/Laws/Exec.lean ====
section
/-! SUPPORT. What executing an instruction and one step can do, said once. -/

namespace Sys2Proof.Machine

/-- The effect of an instruction before it is concluded: the state it completes in, or the fault it raises. -/
def effectOf : Instr → State → Except FaultInfo State
  | .add a b, s => binaryOp (fun x y => x + y) a b s
  | .sub a b, s => binaryOp (fun x y => x - y) a b s
  | .mul a b, s => binaryOp (fun x y => x * y) a b s
  | .div a b, s => divisionOp (fun x y => x / y) a b s
  | .mod a b, s => divisionOp (fun x y => x % y) a b s
  | .inc a, s => unaryOp (fun x => x + 1) a s
  | .dec a, s => unaryOp (fun x => x - 1) a s
  | .cmp a b, s => do
    let ra ← reg a
    let rb ← reg b
    pure (s.setFl (compareFlags (s.reg ra) (s.reg rb)))
  | .and a b, s => binaryOp (fun x y => x &&& y) a b s
  | .not a, s => unaryOp (fun x => ~~~x) a s
  | .or a b, s => binaryOp (fun x y => x ||| y) a b s
  | .xor a b, s => binaryOp (fun x y => x ^^^ y) a b s
  | .shl a b, s => binaryOp (fun x y => x <<< y.toNat) a b s
  | .shr a b, s => binaryOp (fun x y => x >>> y.toNat) a b s
  | .call a, s => do
    let r ← reg a
    if s.pc.toNat + 2 > 255 then
      .error { kind := .addressOutOfRange, addr := some (s.pc.toNat + 2 : Nat) }
    else do
      let s1 ← pushByte (BitVec.ofNat 8 (s.pc.toNat + 2)) s
      pure (s1.setPc (toPc (s1.reg r)))
  | .ret, s => do
    let (v, s1) ← popByte s
    pure (s1.setPc (toPc v))
  | .iret, s => interruptReturn s
  | .jmp a, s => condJump true a s
  | .jeq a, s => condJump (condEq s.fl) a s
  | .jne a, s => condJump (condNe s.fl) a s
  | .jgt a, s => condJump (condGt s.fl) a s
  | .jlt a, s => condJump (condLt s.fl) a s
  | .jle a, s => condJump (condLe s.fl) a s
  | .jge a, s => condJump (condGe s.fl) a s
  | .hlt, s => .ok (s.setRun .halted)
  | .ldi a imm, s => unaryOp (fun _ => imm) a s
  | .ld a b, s => do
    let ra ← reg a
    let rb ← reg b
    let v ← memRead s (s.reg rb).toNat
    pure (s.setReg ra v)
  | .st a b, s => do
    let ra ← reg a
    let rb ← reg b
    memWrite s (s.reg ra).toNat (s.reg rb)
  | .push a, s => do
    let r ← reg a
    let s1 ← decSp s
    memWrite s1 (s1.reg SP).toNat (s1.reg r)
  | .pop a, s => do
    let r ← reg a
    let v ← memRead s (s.reg SP).toNat
    incSp (s.setReg r v)
  | .prn a, s => emitReg .prn a s
  | .pra a, s => emitReg .pra a s

/-- Executing an instruction concludes its effect. -/
theorem exec_eq_conclude (i : Instr) (s : State) : exec i s = conclude s i.opcode (effectOf i s) := by
  cases i <;> rfl

/-- Every instruction answers a next state from every state: the state its effect completes in, or the Faulted state
(60_exceptions.md R200). -/
theorem exec_next_cases {i : Instr} {s t : State} (h : exec i s = .next t) :
    effectOf i s = .ok t ∨ ∃ f, effectOf i s = .error f ∧ t = raiseFault s (some i.opcode) f :=
  conclude_next (exec_eq_conclude i s ▸ h)

/-- What a Running block's cycle can do after the poll has been served in `s` (30_encoding.md R93, 60_exceptions.md
R208). -/
theorem fetchExecute_next {p : Config.Params} {s t : State} (h : fetchExecute p s = .next t) :
    (∃ op f, t = raiseFault s op f ∧ f.kind ≠ .unsupportedOperation ∧ f.line = none ∧
      (f.addr.isSome = true ↔ f.kind = .addressOutOfRange) ∧ f.kind ≠ .unmappedVector) ∨
    (∃ op, decodeWith p.opcodeMap (fetchBytes s) = .error (.unknownOpcode op) ∧ t = s.setPc (s.pc + 1)) ∨
    ∃ i rest u, decodeWith p.opcodeMap (fetchBytes s) = .ok (i, rest) ∧ exec i s = .next u ∧
      t = advance i (s.mem.read s.pc.toNat) s.pc u := by
  unfold fetchExecute at h
  split at h
  case h_1 i rest hd =>
    right; right
    unfold executeInstr at h
    split at h
    case h_1 u hu => cases h; exact ⟨i, rest, u, hd, hu, rfl⟩
    all_goals cases h
  case h_2 => cases h; exact .inl ⟨_, _, rfl, by simp⟩
  case h_3 op hd =>
    split at h
    · cases h; exact .inr (.inl ⟨op, hd, rfl⟩)
    · cases h; exact .inl ⟨_, _, rfl, by simp⟩
  case h_4 => cases h; exact .inl ⟨_, _, rfl, by simp⟩

/-- The end of a cycle whose instruction faulted: the record names the opcode byte fetched (60_exceptions.md R207). -/
theorem advance_faulted {i : Instr} {op : Byte} {pc0 : PcWord} {t : State} {r : FaultRecord} (h : t.run = .faulted r) :
    advance i op pc0 t = t.setRun (.faulted { r with opcode := some op }) := by
  simp [advance, h]

/-- The end of a cycle whose instruction did not fault writes at most `pc` (30_encoding.md R93, R95). -/
theorem advance_ok {i : Instr} (op : Byte) (pc0 : PcWord) {t : State} (h : t.NotFaulted) :
    advance i op pc0 t =
      if opSetsPc i.opcode = true then t else t.setPc (pc0 + 1 + BitVec.ofNat 9 i.operands.length) := by
  unfold advance
  split
  · exact absurd ‹_› (h _)
  · rw [opOperandCount_opcode]

/-- The end of a cycle keeps registers, FL, memory, `timer_due` and the trace, and makes no fault and undoes none. -/
theorem advance_frame (i : Instr) (op : Byte) (pc0 : PcWord) (t : State) :
    (∀ q, (advance i op pc0 t).reg q = t.reg q) ∧ (advance i op pc0 t).fl = t.fl ∧ (advance i op pc0 t).mem = t.mem ∧
      (advance i op pc0 t).timerDue = t.timerDue ∧ (advance i op pc0 t).trace = t.trace ∧
      ((advance i op pc0 t).NotFaulted ↔ t.NotFaulted) ∧ (t.NotFaulted → (advance i op pc0 t).run = t.run) := by
  by_cases h : t.NotFaulted
  · rw [advance_ok op pc0 h]
    split
    · simp
    · simp [State.NotFaulted]
  · obtain ⟨r, hr⟩ : ∃ r, t.run = .faulted r := by
      by_contra hc
      exact h fun r hr => hc ⟨r, hr⟩
    rw [advance_faulted hr]
    refine ⟨fun _ => rfl, rfl, rfl, rfl, rfl, ?_, fun k => absurd k h⟩
    exact ⟨fun k => absurd rfl (k _), fun k => absurd k h⟩

/-- What one step can do: nothing in Halted; else the poll's dispatch faults, or the poll is served and the cycle goes
on. A Faulted block has no next state. -/
theorem stepWith_next {p : Config.Params} {s t : State} (h : stepWith p s = .next t) :
    (s.run = .halted ∧ t = s) ∨
    (s.run = .running ∧
      ((∃ f, pollDispatch p (pollRequests s) = .error f ∧ t = raiseFault (pollRequests s) none f) ∨
       ∃ s2, pollDispatch p (pollRequests s) = .ok s2 ∧ fetchExecute p s2 = .next t)) := by
  unfold stepWith at h
  split at h
  case h_1 hr =>
    refine .inr ⟨hr, ?_⟩
    simp only [runCycle] at h
    split at h
    case h_1 s2 hs => exact .inr ⟨s2, hs, h⟩
    case h_2 f hf => cases h; exact .inl ⟨f, hf, rfl⟩
  case h_2 hr => cases h; exact .inl ⟨hr, rfl⟩
  case h_3 => cases h

/-! ### The shared shapes on register operands -/

theorem unaryOp_regs (f : Byte → Byte) (a : RegIx) (s : State) :
    unaryOp f (regByte a) s = .ok (s.setReg a (f (s.reg a))) := by
  simp [unaryOp, bind, Except.bind, pure, Except.pure]

theorem binaryOp_regs (f : Byte → Byte → Byte) (a b : RegIx) (s : State) :
    binaryOp f (regByte a) (regByte b) s = .ok (s.setReg a (f (s.reg a) (s.reg b))) := by
  simp [binaryOp, bind, Except.bind, pure, Except.pure]

theorem divisionOp_regs (f : Byte → Byte → Byte) (a b : RegIx) (s : State) :
    divisionOp f (regByte a) (regByte b) s =
      if s.reg b = 0 then .error { kind := .divisionByZero } else .ok (s.setReg a (f (s.reg a) (s.reg b))) := by
  simp only [divisionOp, reg_regByte, bind, Except.bind, pure, Except.pure]

theorem condJump_regs (taken : Bool) (a : RegIx) (s : State) :
    condJump taken (regByte a) s = .ok (s.setPc (if taken then toPc (s.reg a) else s.pc + 2)) := by
  cases taken <;> simp [condJump, bind, Except.bind, pure, Except.pure]

theorem emitReg_regs (ev : Byte → OutEvent) (a : RegIx) (s : State) :
    emitReg ev (regByte a) s = .ok (s.emit (ev (s.reg a))) := by
  simp [emitReg, bind, Except.bind, pure, Except.pure]

/-! ### What a shape that answers a state has done -/

theorem bindReg_ok {o : Byte} {α : Type} {k : RegIx → Except FaultInfo α} {t : α} (h : (reg o >>= k) = .ok t) :
    ∃ r, o = regByte r ∧ k r = .ok t := by
  cases hr : reg o with
  | ok r => rw [hr] at h; exact ⟨r, reg_eq_ok hr, h⟩
  | error f => rw [hr] at h; cases h

theorem unaryOp_ok {f : Byte → Byte} {o : Byte} {s t : State} (h : unaryOp f o s = .ok t) :
    ∃ a, o = regByte a ∧ t = s.setReg a (f (s.reg a)) := by
  obtain ⟨a, rfl, _⟩ := bindReg_ok h
  rw [unaryOp_regs] at h; cases h; exact ⟨a, rfl, rfl⟩

theorem binaryOp_ok {f : Byte → Byte → Byte} {o1 o2 : Byte} {s t : State} (h : binaryOp f o1 o2 s = .ok t) :
    ∃ a b, o1 = regByte a ∧ o2 = regByte b ∧ t = s.setReg a (f (s.reg a) (s.reg b)) := by
  obtain ⟨a, rfl, h1⟩ := bindReg_ok h
  obtain ⟨b, rfl, _⟩ := bindReg_ok h1
  rw [binaryOp_regs] at h; cases h; exact ⟨a, b, rfl, rfl, rfl⟩

theorem divisionOp_ok {f : Byte → Byte → Byte} {o1 o2 : Byte} {s t : State} (h : divisionOp f o1 o2 s = .ok t) :
    ∃ a b, o1 = regByte a ∧ o2 = regByte b ∧ s.reg b ≠ 0 ∧ t = s.setReg a (f (s.reg a) (s.reg b)) := by
  obtain ⟨a, rfl, h1⟩ := bindReg_ok h
  obtain ⟨b, rfl, _⟩ := bindReg_ok h1
  rw [divisionOp_regs] at h
  by_cases h0 : s.reg b = 0
  · rw [if_pos h0] at h; cases h
  · rw [if_neg h0] at h; cases h; exact ⟨a, b, rfl, rfl, h0, rfl⟩

theorem condJump_ok {taken : Bool} {o : Byte} {s t : State} (h : condJump taken o s = .ok t) :
    ∃ a, o = regByte a ∧ t = s.setPc (if taken then toPc (s.reg a) else s.pc + 2) := by
  obtain ⟨a, rfl, _⟩ := bindReg_ok h
  rw [condJump_regs] at h; cases h; exact ⟨a, rfl, rfl⟩

theorem emitReg_ok {ev : Byte → OutEvent} {o : Byte} {s t : State} (h : emitReg ev o s = .ok t) :
    ∃ a, o = regByte a ∧ t = s.emit (ev (s.reg a)) := by
  obtain ⟨a, rfl, _⟩ := bindReg_ok h
  rw [emitReg_regs] at h; cases h; exact ⟨a, rfl, rfl⟩

/-- What IRET leaves of the state before (43_interrupt_return.md R190). -/
theorem interruptReturn_frame {s t : State} (h : interruptReturn s = .ok t) :
    t.mem = s.mem ∧ t.run = s.run ∧ t.trace = s.trace ∧ t.timerDue = false ∧ t.reg IM = Config.iretImValue ∧
      ∃ b : Byte, t.pc = toPc b := by
  simp only [interruptReturn, bind, Except.bind] at h
  split at h
  · cases h
  rename_i s1 h1
  split at h
  · cases h
  rename_i x h2
  obtain ⟨f, s2⟩ := x
  split at h
  · cases h
  rename_i y h3
  obtain ⟨v, s3⟩ := y
  cases h
  have k := popRegs_frame h1
  obtain ⟨_, _, rfl⟩ := popByte_inv h2
  obtain ⟨_, _, rfl⟩ := popByte_inv h3
  exact ⟨k.mem, k.run, k.trace, rfl, State.reg_setReg_same _ _ _, v, rfl⟩

/-- IRET with nine bytes up to address 255 completes (43_interrupt_return.md R190). -/
theorem interruptReturn_ok {s : State} (h : (s.reg SP).toNat ≤ 0xF6) :
    ∃ t, interruptReturn s = .ok t ∧ t.mem = s.mem ∧ t.run = s.run ∧ t.trace = s.trace ∧ t.timerDue = false ∧
      t.reg IM = 1 ∧ (t.reg SP).toNat = (s.reg SP).toNat + 9 ∧ t.reg IS = s.mem.read (s.reg SP).toNat ∧
      t.reg 4 = s.mem.read ((s.reg SP).toNat + 2) ∧ t.reg 3 = s.mem.read ((s.reg SP).toNat + 3) ∧
      t.reg 2 = s.mem.read ((s.reg SP).toNat + 4) ∧ t.reg 1 = s.mem.read ((s.reg SP).toNat + 5) ∧
      t.reg 0 = s.mem.read ((s.reg SP).toNat + 6) ∧ t.fl = s.mem.read ((s.reg SP).toNat + 7) ∧
      t.pc = toPc (s.mem.read ((s.reg SP).toNat + 8)) := by
  obtain ⟨s1, h1, hsp1, hr1, -⟩ := popRegs_ok (rs := savedRegs.reverse) (s := s)
    (by simp only [savedRegs, List.length_reverse, List.length_cons, List.length_nil]; omega) (by decide) (by decide)
  have k1 := popRegs_frame h1
  have hl : savedRegs.reverse.length = 7 := rfl
  rw [hl] at hsp1
  have ha : s1.reg SP ≠ 255 := by intro h'; rw [h'] at hsp1; simp at hsp1; omega
  have hb : s1.reg SP + 1 ≠ 255 := by intro h'; have := toNat_succ ha; rw [h'] at this; simp at this; omega
  have ht1 := toNat_succ ha
  have ht2 := toNat_succ hb
  let s2 := (s1.setReg SP (s1.reg SP + 1)).setFl (s1.mem.read (s1.reg SP).toNat)
  have h2 : popByte s1 = .ok (s1.mem.read (s1.reg SP).toNat, s1.setReg SP (s1.reg SP + 1)) := popByte_ok ha
  have hs2 : s2.reg SP = s1.reg SP + 1 := State.reg_setReg_same s1 SP _
  have h3 : popByte s2 = .ok (s2.mem.read (s2.reg SP).toNat, s2.setReg SP (s2.reg SP + 1)) :=
    popByte_ok (by rw [hs2]; exact hb)
  let fin := (((s2.setReg SP (s2.reg SP + 1)).setPc (toPc (s2.mem.read (s2.reg SP).toNat))).setReg IM
    Config.iretImValue).setTimerDue false
  have hfin : ∀ r, r ≠ IM → r ≠ SP → fin.reg r = s1.reg r := by
    intro r h5 h7
    show ((((s2.setReg SP (s2.reg SP + 1)).setPc _).setReg IM Config.iretImValue).setTimerDue false).reg r = _
    rw [State.setTimerDue_reg, State.reg_setReg_of_ne _ _ h5, State.setPc_reg, State.reg_setReg_of_ne _ _ h7]
    exact State.reg_setReg_of_ne s1 _ h7
  have hreg : ∀ k (hk : k < savedRegs.reverse.length) (r : RegIx), savedRegs.reverse[k] = r → r ≠ IM → r ≠ SP →
      fin.reg r = s.mem.read ((s.reg SP).toNat + k) := by
    intro k hk r hr h5 h7
    rw [hfin r h5 h7, ← hr, hr1 k hk]
  refine ⟨fin, ?_, k1.mem, k1.run, k1.trace, rfl, State.reg_setReg_same _ _ _, ?_, hreg 0 (by decide) IS rfl (by decide) (by decide),
    hreg 2 (by decide) 4 rfl (by decide) (by decide), hreg 3 (by decide) 3 rfl (by decide) (by decide),
    hreg 4 (by decide) 2 rfl (by decide) (by decide), hreg 5 (by decide) 1 rfl (by decide) (by decide),
    hreg 6 (by decide) 0 rfl (by decide) (by decide), ?_, ?_⟩
  · simp only [interruptReturn, h1, bind, Except.bind, h2]
    rw [show popByte ((s1.setReg SP (s1.reg SP + 1)).setFl (s1.mem.read (s1.reg SP).toNat)) = _ from h3]
    rfl
  · have : fin.reg SP = s2.reg SP + 1 := by
      show ((((s2.setReg SP (s2.reg SP + 1)).setPc _).setReg IM Config.iretImValue).setTimerDue false).reg SP = _
      rw [State.setTimerDue_reg, State.reg_setReg_of_ne _ _ (by decide), State.setPc_reg, State.reg_setReg_same]
    rw [this, hs2, ht2, ht1, hsp1]
  · show s1.mem.read (s1.reg SP).toNat = _
    rw [hsp1, k1.mem]
  · show toPc (s1.mem.read (s2.reg SP).toNat) = _
    rw [hs2, ht1, hsp1, k1.mem]

/-- What an instruction that completes leaves: FL but for CMP and IRET, the trace but for PRN and PRA, the run state but for
HLT, the timer but for IRET, the canonical form of memory; and where `pc` can be (10_state.md R38, R41, R51, R52). -/
theorem effectOf_frame {i : Instr} {s t : State} (h : effectOf i s = .ok t) :
    ((∀ a b, i ≠ .cmp a b) → i ≠ .iret → t.fl = s.fl) ∧
    ((∀ a, i ≠ .prn a ∧ i ≠ .pra a) → t.trace = s.trace) ∧
    (i ≠ .hlt → t.run = s.run) ∧ (i ≠ .iret → t.timerDue = s.timerDue) ∧
    (s.mem.wf = true → t.mem.wf = true) ∧
    (t.pc = s.pc ∨ (t.pc = s.pc + 2 ∧ i.operands.length = 1) ∨ ∃ b : Byte, t.pc = toPc b) := by
  cases i with
  | add | sub | mul | and | or | xor | shl | shr =>
    simp only [effectOf] at h
    obtain ⟨_, _, _, _, rfl⟩ := binaryOp_ok h; simp
  | div | mod =>
    simp only [effectOf] at h
    obtain ⟨_, _, _, _, _, rfl⟩ := divisionOp_ok h; simp
  | inc | dec | not | ldi =>
    simp only [effectOf] at h
    obtain ⟨_, _, rfl⟩ := unaryOp_ok h; simp
  | cmp a b =>
    obtain ⟨_, _, h⟩ := bindReg_ok h
    obtain ⟨_, _, h⟩ := bindReg_ok h
    cases h; simp
  | jmp | jeq | jne | jgt | jlt | jle | jge =>
    simp only [effectOf] at h
    obtain ⟨_, _, rfl⟩ := condJump_ok h
    refine ⟨by simp, by simp, by simp, by simp, by simp, ?_⟩
    split
    · exact .inr (.inr ⟨_, rfl⟩)
    · exact .inr (.inl ⟨rfl, rfl⟩)
  | prn | pra =>
    simp only [effectOf] at h
    obtain ⟨_, _, rfl⟩ := emitReg_ok h; simp
  | hlt => cases h; simp
  | call a =>
    obtain ⟨_, _, h⟩ := bindReg_ok h
    split at h
    · cases h
    simp only [bind, Except.bind] at h
    split at h
    · cases h
    rename_i s1 h1
    cases h
    have k := pushByte_frame h1
    exact ⟨fun _ _ => k.fl, fun _ => k.trace, fun _ => k.run, fun _ => k.timerDue, k.wf, .inr (.inr ⟨_, rfl⟩)⟩
  | ret =>
    simp only [effectOf, bind, Except.bind] at h
    split at h
    · cases h
    rename_i x h1
    obtain ⟨v, s1⟩ := x
    obtain ⟨_, _, rfl⟩ := popByte_inv h1
    cases h
    exact ⟨fun _ _ => rfl, fun _ => rfl, fun _ => rfl, fun _ => rfl, id, .inr (.inr ⟨v, rfl⟩)⟩
  | iret =>
    obtain ⟨hm, hr, ht, _, _, hp⟩ := interruptReturn_frame h
    exact ⟨by simp, fun _ => ht, fun _ => hr, by simp, fun hw => hm ▸ hw, .inr (.inr hp)⟩
  | ld a b =>
    obtain ⟨_, _, h⟩ := bindReg_ok h
    obtain ⟨_, _, h⟩ := bindReg_ok h
    rw [memRead_byte] at h
    cases h; simp
  | st a b =>
    obtain ⟨ra, _, h⟩ := bindReg_ok h
    obtain ⟨_, _, h⟩ := bindReg_ok h
    rw [memWrite_byte] at h
    cases h
    exact ⟨fun _ _ => rfl, fun _ => rfl, fun _ => rfl, fun _ => rfl, fun hw => Memory.wf_write _ hw (s.reg ra).isLt, .inl rfl⟩
  | push a =>
    obtain ⟨_, _, h⟩ := bindReg_ok h
    simp only [bind, Except.bind] at h
    split at h
    · cases h
    rename_i s1 h1
    obtain ⟨_, rfl⟩ := decSp_inv h1
    rw [memWrite_byte] at h
    cases h
    exact ⟨fun _ _ => rfl, fun _ => rfl, fun _ => rfl, fun _ => rfl, fun hw => Memory.wf_write _ hw (BitVec.isLt _), .inl rfl⟩
  | pop a =>
    obtain ⟨_, _, h⟩ := bindReg_ok h
    rw [memRead_byte] at h
    obtain ⟨_, rfl⟩ := incSp_inv h
    simp

/-- The instructions raise no fault but AddressOutOfRange with an address, DivisionByZero and InvalidRegister
(60_exceptions.md R201, R204, R205). -/
theorem effectOf_error {i : Instr} {s : State} {f : FaultInfo} (h : effectOf i s = .error f) :
    f.line = none ∧ ((f.kind = .addressOutOfRange ∧ f.addr.isSome = true) ∨
      ((f.kind = .divisionByZero ∨ f.kind = .invalidRegister) ∧ f.addr = none)) := by
  have hreg : ∀ {o : Byte} {f : FaultInfo}, reg o = .error f → f = { kind := .invalidRegister } := fun h => (reg_eq_error h).2
  have hdec : ∀ {s : State} {f : FaultInfo}, decSp s = .error f → f = { kind := .addressOutOfRange, addr := some (-1) } := by
    intro s f h
    unfold decSp at h
    split at h <;> cases h; rfl
  have hinc : ∀ {s : State} {f : FaultInfo}, incSp s = .error f → f = { kind := .addressOutOfRange, addr := some 256 } := by
    intro s f h
    unfold incSp at h
    split at h <;> cases h; rfl
  have hpush : ∀ {v : Byte} {s : State} {f : FaultInfo}, pushByte v s = .error f →
      f = { kind := .addressOutOfRange, addr := some (-1) } := by
    intro v s f h
    by_cases h0 : s.reg SP = 0
    · rw [pushByte_zero v h0] at h; cases h; rfl
    · rw [pushByte_ok v h0] at h; cases h
  have hpop : ∀ {s : State} {f : FaultInfo}, popByte s = .error f → f = { kind := .addressOutOfRange, addr := some 256 } := by
    intro s f h
    by_cases h0 : s.reg SP = 255
    · rw [popByte_top h0] at h; cases h; rfl
    · rw [popByte_ok h0] at h; cases h
  have hpops : ∀ (rs : List RegIx) {s : State} {f : FaultInfo}, popRegs rs s = .error f →
      f = { kind := .addressOutOfRange, addr := some 256 } := by
    intro rs
    induction rs with
    | nil => intro s f h; cases h
    | cons r rs ih =>
      intro s f h
      simp only [popRegs, bind, Except.bind] at h
      split at h
      · rename_i g hg; cases h; exact hpop hg
      · exact ih h
  cases i <;> simp only [effectOf, unaryOp, binaryOp, divisionOp, condJump, emitReg, interruptReturn, memRead_byte,
    memWrite_byte, bind, Except.bind, pure, Except.pure] at h
  all_goals
    repeat' split at h
    all_goals first
      | (cases h; exact ⟨rfl, by simp⟩)
      | (rename_i g hg; cases h; cases hreg hg; exact ⟨rfl, by simp⟩)
      | (rename_i g hg; cases h; cases hdec hg; exact ⟨rfl, by simp⟩)
      | (rename_i g hg; cases h; cases hpush hg; exact ⟨rfl, by simp⟩)
      | (rename_i g hg; cases h; cases hpop hg; exact ⟨rfl, by simp⟩)
      | (rename_i g hg; cases h; cases hpops _ hg; exact ⟨rfl, by simp⟩)
      | (cases hinc h; exact ⟨rfl, by simp⟩)
      | cases h

end Sys2Proof.Machine
end

