-- ==== Sys2Proof/Laws/PerInstr.lean ====
section
/-! SUPPORT. One law for every instruction: the fields of its opcode byte agree with its form (30_encoding.md R81, R85),
and the decoder reads its encoding back. -/

namespace Sys2Proof.Laws

/-- The 14 instructions the ALU executes (00_scope.md R3). -/
def isAlu : Instr → Bool
  | .add _ _ => true
  | .sub _ _ => true
  | .mul _ _ => true
  | .div _ _ => true
  | .mod _ _ => true
  | .inc _ => true
  | .dec _ => true
  | .cmp _ _ => true
  | .and _ _ => true
  | .not _ => true
  | .or _ _ => true
  | .xor _ _ => true
  | .shl _ _ => true
  | .shr _ _ => true
  | .call _ => false
  | .ret => false
  | .iret => false
  | .jmp _ => false
  | .jeq _ => false
  | .jne _ => false
  | .jgt _ => false
  | .jlt _ => false
  | .jle _ => false
  | .jge _ => false
  | .hlt => false
  | .ldi _ _ => false
  | .ld _ _ => false
  | .st _ _ => false
  | .push _ => false
  | .pop _ => false
  | .prn _ => false
  | .pra _ => false

/-- The instructions that compute their own next `pc` (30_encoding.md R85, 90_conflicts.md C5). -/
def computesPc : Instr → Bool
  | .add _ _ => false
  | .sub _ _ => false
  | .mul _ _ => false
  | .div _ _ => false
  | .mod _ _ => false
  | .inc _ => false
  | .dec _ => false
  | .cmp _ _ => false
  | .and _ _ => false
  | .not _ => false
  | .or _ _ => false
  | .xor _ _ => false
  | .shl _ _ => false
  | .shr _ _ => false
  | .call _ => true
  | .ret => true
  | .iret => true
  | .jmp _ => true
  | .jeq _ => true
  | .jne _ => true
  | .jgt _ => true
  | .jlt _ => true
  | .jle _ => true
  | .jge _ => true
  | .hlt => false
  | .ldi _ _ => false
  | .ld _ _ => false
  | .st _ _ => false
  | .push _ => false
  | .pop _ => false
  | .prn _ => false
  | .pra _ => false

/-- Bits 7:6 of the opcode are the number of operand bytes, bit 5 the ALU routing, bit 4 that the instruction sets `pc`
(30_encoding.md R81), and the encoding decodes to the instruction whatever follows it. -/
def EncodingFields.Statement (i : Instr) : Prop :=
  opOperandCount i.opcode = i.operands.length ∧ opHandledByAlu i.opcode = isAlu i ∧ opSetsPc i.opcode = computesPc i ∧
    ∀ rest, decode (encode i ++ rest) = .ok (i, rest)

/-- The law, by cases on the constructors; each constructor's lemma cites it. -/
theorem encodingFields_of (i : Instr) : EncodingFields.Statement i := by
  refine ⟨opOperandCount_opcode i, ?_, ?_, decode_encode_append i⟩
  · cases i <;> simp [opHandledByAlu, Instr.opcode, isAlu]
  · cases i <;> simp [opSetsPc, Instr.opcode, computesPc]

theorem EncodingFields.add (a b : Byte) : EncodingFields.Statement (.add a b) := encodingFields_of _
theorem EncodingFields.sub (a b : Byte) : EncodingFields.Statement (.sub a b) := encodingFields_of _
theorem EncodingFields.mul (a b : Byte) : EncodingFields.Statement (.mul a b) := encodingFields_of _
theorem EncodingFields.div (a b : Byte) : EncodingFields.Statement (.div a b) := encodingFields_of _
theorem EncodingFields.mod (a b : Byte) : EncodingFields.Statement (.mod a b) := encodingFields_of _
theorem EncodingFields.inc (a : Byte) : EncodingFields.Statement (.inc a) := encodingFields_of _
theorem EncodingFields.dec (a : Byte) : EncodingFields.Statement (.dec a) := encodingFields_of _
theorem EncodingFields.cmp (a b : Byte) : EncodingFields.Statement (.cmp a b) := encodingFields_of _
theorem EncodingFields.and (a b : Byte) : EncodingFields.Statement (.and a b) := encodingFields_of _
theorem EncodingFields.not (a : Byte) : EncodingFields.Statement (.not a) := encodingFields_of _
theorem EncodingFields.or (a b : Byte) : EncodingFields.Statement (.or a b) := encodingFields_of _
theorem EncodingFields.xor (a b : Byte) : EncodingFields.Statement (.xor a b) := encodingFields_of _
theorem EncodingFields.shl (a b : Byte) : EncodingFields.Statement (.shl a b) := encodingFields_of _
theorem EncodingFields.shr (a b : Byte) : EncodingFields.Statement (.shr a b) := encodingFields_of _
theorem EncodingFields.call (a : Byte) : EncodingFields.Statement (.call a) := encodingFields_of _
theorem EncodingFields.ret : EncodingFields.Statement .ret := encodingFields_of _
theorem EncodingFields.iret : EncodingFields.Statement .iret := encodingFields_of _
theorem EncodingFields.jmp (a : Byte) : EncodingFields.Statement (.jmp a) := encodingFields_of _
theorem EncodingFields.jeq (a : Byte) : EncodingFields.Statement (.jeq a) := encodingFields_of _
theorem EncodingFields.jne (a : Byte) : EncodingFields.Statement (.jne a) := encodingFields_of _
theorem EncodingFields.jgt (a : Byte) : EncodingFields.Statement (.jgt a) := encodingFields_of _
theorem EncodingFields.jlt (a : Byte) : EncodingFields.Statement (.jlt a) := encodingFields_of _
theorem EncodingFields.jle (a : Byte) : EncodingFields.Statement (.jle a) := encodingFields_of _
theorem EncodingFields.jge (a : Byte) : EncodingFields.Statement (.jge a) := encodingFields_of _
theorem EncodingFields.hlt : EncodingFields.Statement .hlt := encodingFields_of _
theorem EncodingFields.ldi (a imm : Byte) : EncodingFields.Statement (.ldi a imm) := encodingFields_of _
theorem EncodingFields.ld (a b : Byte) : EncodingFields.Statement (.ld a b) := encodingFields_of _
theorem EncodingFields.st (a b : Byte) : EncodingFields.Statement (.st a b) := encodingFields_of _
theorem EncodingFields.push (a : Byte) : EncodingFields.Statement (.push a) := encodingFields_of _
theorem EncodingFields.pop (a : Byte) : EncodingFields.Statement (.pop a) := encodingFields_of _
theorem EncodingFields.prn (a : Byte) : EncodingFields.Statement (.prn a) := encodingFields_of _
theorem EncodingFields.pra (a : Byte) : EncodingFields.Statement (.pra a) := encodingFields_of _

end Sys2Proof.Laws
end

