-- ==== Sys2Proof/Tests/Slice0.lean ====
section
/-! SUPPORT. Tests of the model, each against a line of the spec, and the witnesses of the statements' hypotheses. A word is
written out in binary from the row of 30_encoding.md R85; an expected result is that of a vector of 95_test_vectors.md or
of the rule named. -/

namespace Sys2Proof.Tests

open Sys2Proof Sys2Proof.Machine Sys2Proof.Claims

/-! ### Helpers -/

/-- A Running state with the bytes `code` at `pc`, R0 to R4 and SP as given, and no input true in the next cycle. -/
def mk (pc : Nat) (code : List Byte) (r : Vector Byte 8) (fl : Byte := 0) : State where
  regs := r
  pc := BitVec.ofNat 9 pc
  fl := fl
  mem := Memory.writeBytes [] pc code
  run := .running
  timerDue := false
  trace := []
  inputs := [⟨false, false⟩]
  cycle := 0

/-- The registers with R0 and R1 as given and SP as after reset. -/
def rr (a b : Byte) : Vector Byte 8 := #v[a, b, 0, 0, 0, 0, 0, 0xF4]

/-- What one step leaves, read by `f`; `none` when it does not answer a next state. -/
def after {α : Type} (s : State) (f : State → α) : Option α :=
  match step s with
  | .next t => some (f t)
  | .fault _ => none
  | .refused _ => none

/-- The fault record of a state. -/
def rec (s : State) : Option FaultRecord :=
  match s.run with
  | .running => none
  | .halted => none
  | .faulted r => some r

theorem notFaulted {t : State} (h : rec t = none) : t.NotFaulted := by
  intro r hr
  simp [rec, hr] at h

/-- The answer of `exec`, read by `f`. -/
def execd {α : Type} (i : Instr) (s : State) (f : State → α) : Option α :=
  match exec i s with
  | .next t => some (f t)
  | .fault _ => none
  | .refused _ => none

/-! ### Well-formedness: each check refuses an ill-formed term -/

theorem test_wf_refuses_first_operand_8 :
    ([
      .add 8 0, .sub 8 0, .mul 8 0, .div 8 0, .mod 8 0, .cmp 8 0, .and 8 0,
      .or 8 0, .xor 8 0, .shl 8 0, .shr 8 0, .ld 8 0, .st 8 0, .ldi 8 0] : List Instr).all (fun i => !i.wf) = true := by
  decide

theorem test_wf_refuses_second_operand_8 :
    ([
      .add 7 8, .sub 7 8, .mul 7 8, .div 7 8, .mod 7 8, .cmp 7 8, .and 7 8,
      .or 7 8, .xor 7 8, .shl 7 8, .shr 7 8, .ld 7 8, .st 7 8] : List Instr).all (fun i => !i.wf) = true := by
  decide

theorem test_wf_refuses_only_operand_255 :
    ([
      .inc 255, .dec 255, .not 255, .call 255, .jmp 255, .jeq 255, .jne 255, .jgt 255,
      .jlt 255, .jle 255, .jge 255, .push 255, .pop 255, .prn 255, .pra 255] : List Instr).all (fun i => !i.wf) = true := by
  decide

theorem test_wf_accepts_register_7_and_any_immediate :
    ([.add 7 7, .ldi 7 255, .ret, .iret, .hlt, .push 7] : List Instr).all (fun i => i.wf) = true := by decide

/-! ### Decoding: the words of 30_encoding.md R85, written out in binary -/

theorem test_decode_add : decode [0b10100000, 0b00000001, 0b00000101, 0xFF] = .ok (.add 1 5, [0xFF]) := by decide
theorem test_decode_sub : decode [0b10100001, 0b00000010, 0b00000000, 0xFF] = .ok (.sub 2 0, [0xFF]) := by decide
theorem test_decode_mul : decode [0b10100010, 0b00000011, 0b00000011, 0xFF] = .ok (.mul 3 3, [0xFF]) := by decide
theorem test_decode_div : decode [0b10100011, 0b00000100, 0b00000110, 0xFF] = .ok (.div 4 6, [0xFF]) := by decide
theorem test_decode_mod : decode [0b10100100, 0b00000101, 0b00000001, 0xFF] = .ok (.mod 5 1, [0xFF]) := by decide
theorem test_decode_inc : decode [0b01100101, 0b00000110, 0xFF] = .ok (.inc 6, [0xFF]) := by decide
theorem test_decode_dec : decode [0b01100110, 0b00000111, 0xFF] = .ok (.dec 7, [0xFF]) := by decide
theorem test_decode_cmp : decode [0b10100111, 0b00000001, 0b00000010, 0xFF] = .ok (.cmp 1 2, [0xFF]) := by decide
theorem test_decode_and : decode [0b10101000, 0b00000010, 0b00000101, 0xFF] = .ok (.and 2 5, [0xFF]) := by decide
theorem test_decode_not : decode [0b01101001, 0b00000011, 0xFF] = .ok (.not 3, [0xFF]) := by decide
theorem test_decode_or : decode [0b10101010, 0b00000100, 0b00000011, 0xFF] = .ok (.or 4 3, [0xFF]) := by decide
theorem test_decode_xor : decode [0b10101011, 0b00000101, 0b00000110, 0xFF] = .ok (.xor 5 6, [0xFF]) := by decide
theorem test_decode_shl : decode [0b10101100, 0b00000110, 0b00000001, 0xFF] = .ok (.shl 6 1, [0xFF]) := by decide
theorem test_decode_shr : decode [0b10101101, 0b00000111, 0b00000100, 0xFF] = .ok (.shr 7 4, [0xFF]) := by decide
theorem test_decode_call : decode [0b01010000, 0b00000001, 0xFF] = .ok (.call 1, [0xFF]) := by decide
theorem test_decode_ret : decode [0b00010001, 0xFF] = .ok (.ret, [0xFF]) := by decide
theorem test_decode_iret : decode [0b00010011, 0xFF] = .ok (.iret, [0xFF]) := by decide
theorem test_decode_jmp : decode [0b01010100, 0b00000100, 0xFF] = .ok (.jmp 4, [0xFF]) := by decide
theorem test_decode_jeq : decode [0b01010101, 0b00000101, 0xFF] = .ok (.jeq 5, [0xFF]) := by decide
theorem test_decode_jne : decode [0b01010110, 0b00000110, 0xFF] = .ok (.jne 6, [0xFF]) := by decide
theorem test_decode_jgt : decode [0b01010111, 0b00000111, 0xFF] = .ok (.jgt 7, [0xFF]) := by decide
theorem test_decode_jlt : decode [0b01011000, 0b00000001, 0xFF] = .ok (.jlt 1, [0xFF]) := by decide
theorem test_decode_jle : decode [0b01011001, 0b00000010, 0xFF] = .ok (.jle 2, [0xFF]) := by decide
theorem test_decode_jge : decode [0b01011010, 0b00000011, 0xFF] = .ok (.jge 3, [0xFF]) := by decide
theorem test_decode_hlt : decode [0b00000001, 0xFF] = .ok (.hlt, [0xFF]) := by decide
theorem test_decode_ldi : decode [0b10000010, 0b00000101, 0b10010110, 0xFF] = .ok (.ldi 5 150, [0xFF]) := by decide
theorem test_decode_ld : decode [0b10000011, 0b00000110, 0b00000011, 0xFF] = .ok (.ld 6 3, [0xFF]) := by decide
theorem test_decode_st : decode [0b10000100, 0b00000111, 0b00000110, 0xFF] = .ok (.st 7 6, [0xFF]) := by decide
theorem test_decode_push : decode [0b01000101, 0b00000001, 0xFF] = .ok (.push 1, [0xFF]) := by decide
theorem test_decode_pop : decode [0b01000110, 0b00000010, 0xFF] = .ok (.pop 2, [0xFF]) := by decide
theorem test_decode_prn : decode [0b01000111, 0b00000011, 0xFF] = .ok (.prn 3, [0xFF]) := by decide
theorem test_decode_pra : decode [0b01001000, 0b00000100, 0xFF] = .ok (.pra 4, [0xFF]) := by decide

/-- 30_encoding.md R87: 0x00, 0x52, an operand count of 3, an ALU selector of 14. -/
theorem test_decode_unknown_by_name :
    [[0x00], [0x52, 0x00], [0xC0], [0xAE, 0x00, 0x01]].map decode =
      [.error (.unknownOpcode 0x00), .error (.unknownOpcode 0x52), .error (.unknownOpcode 0xC0),
        .error (.unknownOpcode 0xAE)] := by decide

/-- 30_encoding.md R93: the operand that is not there is named. -/
theorem test_decode_missing_operand_by_name :
    [[0x47], [0x82], [0x82, 0x00], []].map decode =
      [.error (.missingOperand 0x47 1), .error (.missingOperand 0x82 1), .error (.missingOperand 0x82 2),
        .error .noBytes] := by decide

/-- spec/opcode_table.json numbers bit 0 as the least significant bit of the first byte. -/
theorem test_decodeTableWord :
    decodeTableWord 24 0x0100A0 = some (.add 0 1) ∧ decodeTableWord 24 0x080082 = some (.ldi 0 8) ∧
      decodeTableWord 8 0x45 = some (.push 0) ∧ decodeTableWord 8 0x00 = none := by decide

/-! ### One step of an instruction (95_test_vectors.md L2; the rule where no vector is named) -/

theorem test_add_wraps :
    after (mk 0 [0xA0, 0, 1] (rr 200 100) 0x04) (fun t => (t.reg 0, t.fl, t.pc)) = some (44, 0x04, 3) := by decide

theorem test_add_same_register :
    after (mk 0 [0xA0, 0, 0] (rr 128 0) 0x04) (fun t => (t.reg 0, t.fl, t.pc)) = some (0, 0x04, 3) := by decide

theorem test_sub_borrows :
    after (mk 0 [0xA1, 0, 1] (rr 3 5) 0x04) (fun t => (t.reg 0, t.fl, t.pc)) = some (254, 0x04, 3) := by decide

theorem test_sub_from_zero :
    after (mk 0 [0xA1, 0, 1] (rr 0 1) 0x04) (fun t => (t.reg 0, t.fl, t.pc)) = some (255, 0x04, 3) := by decide

theorem test_mul_low_byte :
    after (mk 0 [0xA2, 0, 1] (rr 255 255) 0x04) (fun t => (t.reg 0, t.fl, t.pc)) = some (1, 0x04, 3) := by decide

theorem test_mul_scenario :
    after (mk 0 [0xA2, 0, 1] (rr 8 9) 0x04) (fun t => (t.reg 0, t.fl, t.pc)) = some (72, 0x04, 3) := by decide

theorem test_div_unsigned :
    after (mk 0 [0xA3, 0, 1] (rr 200 7) 0x04) (fun t => (t.reg 0, t.fl, t.pc)) = some (28, 0x04, 3) := by decide

/-- 95_test_vectors.md L1.4. -/
theorem test_div_by_zero :
    after (mk 6 [0xA3, 0, 1] (rr 10 0)) (fun t => (rec t, t.trace)) =
      some (some { kind := .divisionByZero, pc := 6, opcode := some 0xA3, addr := none, line := none }, []) := by decide

theorem test_mod_unsigned :
    after (mk 0 [0xA4, 0, 1] (rr 200 7) 0x04) (fun t => (t.reg 0, t.fl, t.pc)) = some (4, 0x04, 3) := by decide

theorem test_mod_by_zero :
    after (mk 0 [0xA4, 0, 1] (rr 9 0)) rec =
      some (some { kind := .divisionByZero, pc := 0, opcode := some 0xA4, addr := none, line := none }) := by decide

theorem test_inc_wraps :
    after (mk 0 [0x65, 0] (rr 255 0)) (fun t => (t.reg 0, t.fl, t.pc)) = some (0, 0, 2) := by decide

theorem test_inc_sp_is_ordinary :
    after (mk 0 [0x65, 7] (rr 0 0)) (fun t => t.reg SP) = some 0xF5 := by decide

theorem test_dec_wraps :
    after (mk 0 [0x66, 0] (rr 0 0)) (fun t => (t.reg 0, t.fl, t.pc)) = some (255, 0, 2) := by decide

theorem test_dec_to_zero :
    after (mk 0 [0x66, 0] (rr 1 0)) (fun t => (t.reg 0, t.fl, t.pc)) = some (0, 0, 2) := by decide

theorem test_cmp_is_unsigned :
    after (mk 0 [0xA7, 0, 1] (rr 0x80 0x7F) 0) (fun t => (t.fl, t.reg 0, t.reg 1, t.pc)) = some (0x02, 0x80, 0x7F, 3) := by decide

theorem test_cmp_clears_upper_bits :
    after (mk 0 [0xA7, 0, 1] (rr 7 7) 0xF8) (fun t => (t.fl, t.reg 0, t.reg 1, t.pc)) = some (0x01, 7, 7, 3) := by decide

theorem test_and_bits :
    after (mk 0 [0xA8, 0, 1] (rr 0xF0 0x3C) 0x04) (fun t => (t.reg 0, t.fl, t.pc)) = some (0x30, 0x04, 3) := by decide

theorem test_or_bits :
    after (mk 0 [0xAA, 0, 1] (rr 0xF0 0x0F) 0x04) (fun t => (t.reg 0, t.fl, t.pc)) = some (0xFF, 0x04, 3) := by decide

theorem test_xor_bits :
    after (mk 0 [0xAB, 0, 1] (rr 0xFF 0x0F) 0x04) (fun t => (t.reg 0, t.fl, t.pc)) = some (0xF0, 0x04, 3) := by decide

theorem test_xor_same_register :
    after (mk 0 [0xAB, 0, 0] (rr 0x5A 0) 0x04) (fun t => (t.reg 0, t.fl, t.pc)) = some (0, 0x04, 3) := by decide

theorem test_not_bits :
    after (mk 0 [0x69, 3] #v[0, 0, 0, 0x5A, 0, 0, 0, 0xF4]) (fun t => (t.reg 3, t.pc)) = some (0xA5, 2) := by decide

theorem test_shl_by_8_is_zero :
    after (mk 0 [0xAC, 0, 1] (rr 1 8) 0x04) (fun t => (t.reg 0, t.fl, t.pc)) = some (0, 0x04, 3) := by decide

theorem test_shl_by_itself :
    after (mk 0 [0xAC, 0, 0] (rr 5 0) 0x04) (fun t => (t.reg 0, t.fl, t.pc)) = some (160, 0x04, 3) := by decide

theorem test_shr_logical :
    after (mk 0 [0xAD, 0, 1] (rr 0x80 7) 0x04) (fun t => (t.reg 0, t.fl, t.pc)) = some (1, 0x04, 3) := by decide

theorem test_shr_by_8_is_zero :
    after (mk 0 [0xAD, 0, 1] (rr 0x80 8) 0x04) (fun t => (t.reg 0, t.fl, t.pc)) = some (0, 0x04, 3) := by decide

theorem test_push_decrements_then_stores :
    after (mk 0 [0x45, 0] (rr 42 0)) (fun t => (t.reg SP, t.mem.read 0xF3, t.pc)) = some (0xF3, 42, 2) := by decide

theorem test_push_r7_stores_decremented_sp :
    after (mk 0 [0x45, 7] (rr 0 0)) (fun t => (t.reg SP, t.mem.read 0xF3)) = some (0xF3, 0xF3) := by decide

theorem test_pop_loads_then_increments :
    execd (.pop 1) ((mk 0 [] (#v[0, 0, 0, 0, 0, 0, 0, 0xF3])).setMem [(0xF3, 42)]) (fun t => (t.reg 1, t.reg SP)) =
      some (42, 0xF4) := by decide

theorem test_pop_r7_ends_at_byte_plus_one :
    execd (.pop 7) ((mk 0 [] (#v[0, 0, 0, 0, 0, 0, 0, 0xF3])).setMem [(0xF3, 0x10)]) (fun t => t.reg SP) = some 0x11 := by decide

theorem test_call_pushes_return_address :
    after (mk 0x0C [0x50, 2] #v[0, 0, 0x12, 0, 0, 0, 0, 0xF4]) (fun t => (t.mem.read 0xF3, t.reg SP, t.pc)) =
      some (0x0E, 0xF3, 0x12) := by decide

theorem test_call_r7_jumps_to_decremented_sp :
    after (mk 0x10 [0x50, 7] (rr 0 0)) (fun t => (t.mem.read 0xF3, t.reg SP, t.pc)) = some (0x12, 0xF3, 0xF3) := by decide

theorem test_ret_pops_pc :
    execd .ret ((mk 0 [] (#v[0, 0, 0, 0, 0, 0, 0, 0xF3])).setMem [(0xF3, 0x0E)]) (fun t => (t.pc, t.reg SP)) = some (0x0E, 0xF4) := by decide

theorem test_ret_faults_at_top :
    after (mk 0 [0x11] #v[0, 0, 0, 0, 0, 0, 0, 0xFF]) rec =
      some (some { kind := .addressOutOfRange, pc := 0, opcode := some 0x11, addr := some 256, line := none }) := by decide

theorem test_jmp_to_register :
    after (mk 0 [0x54, 2] #v[0, 0, 0x0F, 0, 0, 0, 0, 0xF4]) (fun t => t.pc) = some 0x0F := by decide

/-- The `pc` after a conditional jump at 0x10 with R1 = 0x40, for FL = 0, 1, 2, 4, 7 and 8 (95_test_vectors.md L2.5). -/
def jumpRow (op : Byte) : List (Option PcWord) :=
  ([0x00, 0x01, 0x02, 0x04, 0x07, 0x08] : List Byte).map fun fl => after (mk 0x10 [op, 1] (rr 0 0x40) fl) (fun t => t.pc)

theorem test_jeq_row : jumpRow 0x55 = [some 0x12, some 0x40, some 0x12, some 0x12, some 0x40, some 0x12] := by decide
theorem test_jne_row : jumpRow 0x56 = [some 0x40, some 0x12, some 0x40, some 0x40, some 0x12, some 0x40] := by decide
theorem test_jgt_row : jumpRow 0x57 = [some 0x12, some 0x12, some 0x40, some 0x12, some 0x40, some 0x12] := by decide
theorem test_jge_row : jumpRow 0x5A = [some 0x12, some 0x40, some 0x40, some 0x12, some 0x40, some 0x12] := by decide
theorem test_jlt_row : jumpRow 0x58 = [some 0x12, some 0x12, some 0x12, some 0x40, some 0x40, some 0x12] := by decide
theorem test_jle_row : jumpRow 0x59 = [some 0x12, some 0x40, some 0x12, some 0x40, some 0x40, some 0x12] := by decide

theorem test_st_stores_at_register :
    after (mk 0 [0x84, 1, 0] (rr 0x30 0xF8)) (fun t => (t.mem.read 0xF8, t.pc)) = some (0x30, 3) := by decide

theorem test_st_of_zero_keeps_memory_canonical :
    execd (.st 1 0) ((mk 0 [] (rr 0 0x20)).setMem [(0x20, 7)]) (fun t => t.mem) = some [] := by decide

theorem test_ld_loads_from_register :
    execd (.ld 3 1) ((mk 0 [] (rr 0 0x20)).setMem [(0x20, 7)]) (fun t => t.reg 3) = some 7 := by decide

theorem test_ld_over_its_own_address :
    execd (.ld 1 1) ((mk 0 [] (rr 0 0x20)).setMem [(0x20, 7)]) (fun t => t.reg 1) = some 7 := by decide

theorem test_ldi_loads_any_byte :
    after (mk 0 [0x82, 0, 0xFF] (rr 1 1)) (fun t => (t.reg 0, t.fl, t.pc)) = some (255, 0, 3) := by decide

theorem test_ldi_second_operand_is_no_register :
    after (mk 0 [0x82, 7, 0x80] (rr 1 1)) (fun t => (rec t, t.reg SP)) = some (none, 0x80) := by decide

theorem test_prn_emits :
    after (mk 0 [0x47, 0] (rr 72 0)) (fun t => (t.trace, t.reg 0, t.pc)) = some ([.prn 72], 72, 2) := by decide

theorem test_pra_emits_after :
    after ((mk 0 [0x48, 3] #v[0, 0, 0, 65, 0, 0, 0, 0xF4]).emit (.prn 1)) (fun t => (t.trace, t.pc)) = some ([.prn 1, .pra 65], 2) := by decide

/-- 95_test_vectors.md L2.7: HLT at 0xFF leaves `pc` at 256. -/
theorem test_hlt_advances :
    after (mk 0xFF [0x01] (rr 0 0)) (fun t => (t.run, t.pc)) = some (.halted, 256) := by decide

/-- The frame of 95_test_vectors.md L2.9 case B, at 0xEB to 0xF3. -/
def frame : List Byte := [0, 0, 7, 6, 5, 4, 3, 2, 0x0F]

/-- A state with that frame on the stack and the timer due. -/
def inHandler : State :=
  (((mk 0x40 [0x13] #v[9, 9, 9, 9, 9, 0, 1, 0xEB]).setTimerDue true).setMem (Memory.writeBytes [(0x40, 0x13)] 0xEB frame))

/-- 95_test_vectors.md L2.9 case B. -/
theorem test_iret_restores_frame :
    after inHandler (fun t => (t.regs, t.fl, t.pc, t.timerDue, t.mem == inHandler.mem)) =
      some (#v[3, 4, 5, 6, 7, 1, 0, 0xF4], 0x02, 0x0F, false, true) := by decide

theorem test_iret_faults_above_F6 :
    after (mk 0 [0x13] #v[0, 0, 0, 0, 0, 0, 0, 0xF7]) rec =
      some (some { kind := .addressOutOfRange, pc := 0, opcode := some 0x13, addr := some 256, line := none }) := by decide

/-! ### The cycle (95_test_vectors.md L2.8) -/

/-- `A3 09 00` with x0 = 0. -/
theorem test_register_check_comes_before_division :
    after (mk 0 [0xA3, 9, 0] (rr 0 0)) rec =
      some (some { kind := .invalidRegister, pc := 0, opcode := some 0xA3, addr := none, line := none }) := by decide

/-- `JEQ R9` with FL = 0. -/
theorem test_conditional_jump_checks_register_when_not_taken :
    after (mk 0 [0x55, 9] (rr 0 0)) rec =
      some (some { kind := .invalidRegister, pc := 0, opcode := some 0x55, addr := none, line := none }) := by decide

/-- `80` at 0xFF. -/
theorem test_unknown_at_255_comes_before_operand_fetch :
    after (mk 0xFF [0x80] (rr 0 0)) rec =
      some (some { kind := .unknownInstruction, pc := 0xFF, opcode := some 0x80, addr := none, line := none }) := by decide

/-- `82 00` at 0xFE. -/
theorem test_operand_fetch_beyond_255 :
    after (mk 0xFE [0x82, 0] (rr 0 0)) rec =
      some (some { kind := .addressOutOfRange, pc := 0xFE, opcode := some 0x82, addr := some 256, line := none }) := by decide

theorem test_fetch_at_256 :
    after (mk 256 [] (rr 0 0)) rec =
      some (some { kind := .addressOutOfRange, pc := 256, opcode := none, addr := some 256, line := none }) := by decide

/-- 95_test_vectors.md L1.5. -/
theorem test_instruction_ending_at_255_leaves_256 :
    after (mk 0xFD [0x82, 1, 5] (rr 0 0)) (fun t => (t.reg 1, t.pc, rec t)) = some (5, 256, none) := by decide

theorem test_push_faults_at_sp_0 :
    after (mk 0 [0x45, 0] #v[0, 0, 0, 0, 0, 0, 0, 0]) rec =
      some (some { kind := .addressOutOfRange, pc := 0, opcode := some 0x45, addr := some (-1), line := none }) := by decide

theorem test_call_faults_at_254 :
    after (mk 0xFE [0x50, 0] (rr 0 0)) rec =
      some (some { kind := .addressOutOfRange, pc := 0xFE, opcode := some 0x50, addr := some 256, line := none }) := by decide

theorem test_pop_r7_faults_on_byte_255 :
    execd (.pop 7) ((mk 0 [] (#v[0, 0, 0, 0, 0, 0, 0, 0xF3])).setMem [(0xF3, 0xFF)]) rec =
      some (some { kind := .addressOutOfRange, pc := 0, opcode := some 0x46, addr := some 256, line := none }) := by decide

/-- 00_scope.md R9, 30_encoding.md R87: with NOP_AT_00 the byte 0x00 only advances `pc`. -/
theorem test_nop_at_00_parameter :
    (match stepWith { Config.Params.standard with nopAt00 := true } (mk 0 [] (rr 0 0)) with
      | .next t => some (t.pc, t.regs, rec t)
      | .fault _ => none
      | .refused _ => none) = some (1, rr 0 0, none) := by decide

/-- 00_scope.md R9, 92_eei_decisions.md D1: a map that exchanges ADD and DIV; a fault record names the byte fetched. -/
theorem test_opcode_map_parameter :
    let m : Byte → Option Byte := fun op => if op = 0xA0 then some 0xA3 else if op = 0xA3 then some 0xA0 else some op
    (([mk 0 [0xA3, 0, 1] (rr 7 9), mk 0 [0xA0, 0, 1] (rr 7 0)]).map fun s =>
      match stepWith { Config.Params.standard with opcodeMap := m } s with
      | .next t => (rec t).elim (Sum.inl (t.reg 0, t.pc)) (fun r => Sum.inr (r.kind, r.opcode))
      | .fault _ => Sum.inl (0, 0)
      | .refused _ => Sum.inl (0, 0)) = [.inl (16, 3), .inr (.divisionByZero, some 0xA0)] := by decide

/-! ### Interrupts (95_test_vectors.md L2.9) -/

/-- Case A: the state before the cycle in which the timer fires. -/
def beforeTimer : State :=
  { (mk 0x0F [] #v[3, 4, 5, 6, 7, 1, 0, 0xF4] 0x02) with mem := [(0x40, 0x01), (0xF8, 0x40)], inputs := [⟨true, false⟩] }

/-- Case A: the frame, and the handler's HLT executed in the same cycle. -/
theorem test_timer_dispatch_saves_the_frame :
    after beforeTimer (fun t => ((List.range 9).map (fun k => t.mem.read (0xEB + k)), t.regs, t.pc, t.run, t.timerDue)) =
      some (frame, #v[3, 4, 5, 6, 7, 0, 0, 0xEB], 0x41, .halted, true) := by decide

/-- Case C, with a HLT at 0x50. -/
theorem test_keyboard_line_through_F9 :
    after { (mk 0 [] #v[0, 0, 0, 0, 0, 2, 3, 0xF4]) with mem := [(0x50, 0x01), (0xF9, 0x50)] }
      (fun t => (t.reg IM, t.reg IS, t.mem.read 0xEB, t.pc)) = some (0, 1, 1, 0x51) := by decide

/-- Case E, with a HLT at 0. -/
theorem test_masked_request_stays_pending :
    after { (mk 0 [0x01] #v[0, 0, 0, 0, 0, 1, 0, 0xF4]) with inputs := [⟨false, true⟩] } (fun t => (t.reg IM, t.reg IS, t.pc)) =
      some (1, 2, 1) := by decide

/-- Case E, with a HLT at 0. -/
theorem test_timer_sets_is_while_disabled :
    after { (mk 0 [0x01] (rr 0 0)) with inputs := [⟨true, false⟩] } (fun t => (t.reg IM, t.reg IS, t.timerDue)) = some (0, 1, true) := by decide

/-- Case F. -/
theorem test_line_2_has_no_vector :
    after (mk 0 [0x01] #v[0, 0, 0, 0, 0, 0xFF, 4, 0xF4]) rec =
      some (some { kind := .unmappedVector, pc := 0, opcode := none, addr := none, line := some 2 }) := by decide

/-- Case G. -/
theorem test_dispatch_faults_without_room :
    after (mk 0 [0x01] #v[0, 0, 0, 0, 0, 1, 1, 5]) rec =
      some (some { kind := .addressOutOfRange, pc := 0, opcode := none, addr := some (-1), line := none }) := by decide

/-- Case H. -/
theorem test_dispatch_faults_at_256 :
    after (mk 256 [] #v[0, 0, 0, 0, 0, 1, 1, 0xF4]) rec =
      some (some { kind := .addressOutOfRange, pc := 256, opcode := none, addr := some 256, line := none }) := by decide

/-- Lines 2 to 7 with the vectors `0xF8 + n` that 60_exceptions.md R217 names: line 3 enters through 0xFB. -/
def highVectors : Config.Params := { Config.Params.standard with vecHigh := fun n => some (0xF8 + BitVec.ofNat 8 n.val) }

theorem test_line_3_with_vec_high :
    (match dispatch highVectors 3 { (mk 0 [] #v[0, 0, 0, 0, 0, 8, 8, 0xF4]) with mem := [(0xFB, 0x77)] } with
      | .ok t => some (t.pc, t.reg IS)
      | .error _ => none) = some (0x77, 0) := by decide

/-! ### Reset and the host's placing of an instruction -/

theorem test_reset_values :
    State.reset.regs = #v[0, 0, 0, 0, 0, 0, 0, 0xF4] ∧ State.reset.pc = 0 ∧ State.reset.fl = 0 ∧ State.reset.mem = [] ∧
      State.reset.run = .running ∧ State.reset.timerDue = false ∧ State.reset.trace = [] := by decide

/-- The first cycle after reset runs the placed word, whatever the free inputs are. -/
theorem test_withFetchWord_runs_first :
    after (State.reset.withFetchWord 24 0x080082) (fun t => (t.reg 0, t.pc)) = some (8, 3) ∧
      after (State.reset.withFetchWord 8 0x01) (fun t => (t.run, t.pc)) = some (.halted, 1) ∧
      after (State.reset.withFetchWord 8 0x45) (fun t => (t.reg SP, t.pc)) = some (0xF3, 2) := by decide

/-- In a handler's place and beyond the last three bytes the word is placed at 0, with the poll kept from dispatching. -/
theorem test_withFetchWord_elsewhere :
    after ((mk 255 [] #v[0, 0, 0, 0, 0, 1, 1, 0xF4]).withFetchWord 24 0x080082) (fun t => (t.reg 0, t.pc)) = some (8, 3) := by
  decide

/-- 70_reset_and_hazards.md R240: an image of more than 256 bytes is no preload. -/
theorem test_preload_bound :
    State.reset.preload (List.replicate 257 1) = none ∧
      (State.reset.preload [0x01]).map (fun s => s.mem) = some [(0, 0x01)] :=
  ⟨if_neg (by rw [List.length_replicate]; decide), by decide⟩

/-! ### Witnesses: a state and operands that meet the hypotheses of each statement, clause by clause, at boundary values -/

/-- R0 and SP as given. -/
def sp (r0 v : Byte) : State := mk 0 [] #v[r0, 0, 0, 0, 0, 0, 0, v]

/-- DecodeRejectsByName. -/
theorem test_witness_decode_rejects :
    (0x00 : Byte) ∉ knownOpcodes ∧ (0xFF : Byte) ∉ knownOpcodes ∧
      ([0x82, 0x01] : List Byte) ≠ [] ∧ [0x82, 0x01] <+: encode (.ldi 1 0) ∧ [0x82, 0x01] ≠ encode (.ldi 1 0) := by decide

/-- BinaryRule, UnaryRule, JumpRule, LDI, PUSH, POP, CALL: an operand byte of 8, the first of those refused. -/
theorem test_witness_invalid_register : 8 ≤ (8 : Byte).toNat ∧ ¬ 8 ≤ (7 : Byte).toNat := by decide

/-- DivisionRule: a divisor of 1, and of 0. -/
theorem test_witness_division : (mk 0 [] (rr 9 1)).reg 1 ≠ 0 ∧ (mk 0 [] (rr 9 0)).reg 1 = 0 := by decide

/-- JumpRule: each condition holds of one FL and fails of another. -/
theorem test_witness_jump_conditions :
    (0x01 : Byte).getLsbD 0 = true ∧ (0x02 : Byte).getLsbD 0 = false ∧ (0x02 : Byte).getLsbD 1 = true ∧
      (0x04 : Byte).getLsbD 1 = false ∧ (0x04 : Byte).getLsbD 2 = true ∧ (0x01 : Byte).getLsbD 2 = false := by decide

/-- PushDecrementsThenStores: SP = 1, and SP = 0. -/
theorem test_witness_push : (sp 0 1).reg SP ≠ 0 ∧ (sp 0 0).reg SP = 0 := by decide

/-- PopLoadsThenIncrements: SP = 254; POP R7 with SP = 255 and a byte that is not 255; SP = 255 into R0; POP R7 of 255. -/
theorem test_witness_pop :
    ((0 : RegIx) ≠ SP ∧ (sp 0 254).reg SP ≠ 255) ∧ (sp 0 255).mem.read ((sp 0 255).reg SP).toNat ≠ 255 ∧
      ((0 : RegIx) ≠ SP ∧ (sp 0 255).reg SP = 255) ∧
      ((sp 0 255).setMem [(255, 255)]).mem.read (((sp 0 255).setMem [(255, 255)]).reg SP).toNat = 255 := by decide

/-- CallPushesReturnAddress, RetReturnsBehindTheCall: `pc` = 253 with SP = 1; `pc` = 254; `pc` = 253 with SP = 0. -/
theorem test_witness_call :
    (((sp 0 1).setPc 253).pc.toNat ≤ 253 ∧ ((sp 0 1).setPc 253).reg SP ≠ 0 ∧ ((sp 0 1).setPc 253).mem.wf = true) ∧
      254 ≤ ((sp 0 1).setPc 254).pc.toNat ∧
      (((sp 0 0).setPc 253).pc.toNat ≤ 253 ∧ ((sp 0 0).setPc 253).reg SP = 0) := by decide

/-- RetPopsProgramCounter: SP = 254, and SP = 255. -/
theorem test_witness_ret : (sp 0 254).reg SP ≠ 255 ∧ (sp 0 255).reg SP = 255 := by decide

/-- HltHaltsAndAdvances: a HLT at 255 is executed. -/
theorem test_witness_hlt_executes :
    Executes .standard (mk 255 [0x01] (rr 0 0)) (pollRequests (mk 255 [0x01] (rr 0 0))) .hlt :=
  ⟨rfl, rfl, [], rfl⟩

/-- IretRestoresTheFrame: SP = 0xF6, and SP = 0xF7. -/
theorem test_witness_iret : ((sp 0 0xF6).reg SP).toNat ≤ 0xF6 ∧ 0xF6 < ((sp 0 0xF7).reg SP).toNat := by decide

/-- IllFormedInstructionRaisesInvalidRegister. -/
theorem test_witness_ill_formed : (Instr.add 7 8).wf = false ∧ (Instr.ldi 8 0).wf = false := by decide

/-- RegisterDestinationFrame. -/
theorem test_witness_register_destination_frame :
    plainDest (.add 2 5) = some 2 ∧ ∃ t, exec (.add 2 5) (sp 1 0) = .next t ∧ t.NotFaulted :=
  ⟨rfl, _, rfl, notFaulted rfl⟩

/-- NoRegisterFrame: for HLT, and for PRN. -/
theorem test_witness_no_register_frame :
    (writesNoRegister .hlt = true ∧ ∃ t, exec .hlt (sp 1 0) = .next t ∧ t.NotFaulted) ∧
      (writesNoRegister (.prn 0) = true ∧ ∃ t, exec (.prn 0) (sp 1 0) = .next t ∧ t.NotFaulted) :=
  ⟨⟨rfl, _, rfl, notFaulted rfl⟩, rfl, _, rfl, notFaulted rfl⟩

/-- StoreFrame: ST, PUSH to address 0, CALL to address 0. -/
theorem test_witness_store_frame :
    (sp 255 1).mem.wf = true ∧ (∃ t, exec (.st (regByte 0) 7) (sp 255 1) = .next t ∧ t.NotFaulted) ∧
      (∃ t, exec (.push 7) (sp 255 1) = .next t ∧ t.NotFaulted) ∧
      (∃ t, exec (.call 0) (sp 255 1) = .next t ∧ t.NotFaulted) :=
  ⟨rfl, ⟨_, rfl, notFaulted rfl⟩, ⟨_, rfl, notFaulted rfl⟩, _, rfl, notFaulted rfl⟩

/-- PopFrame: POP and RET at SP = 254, IRET at SP = 0xF6. -/
theorem test_witness_pop_frame :
    (∃ t, exec (.pop 0) (sp 0 254) = .next t ∧ t.NotFaulted) ∧ (∃ t, exec .ret (sp 0 254) = .next t ∧ t.NotFaulted) ∧
      (∃ t, exec .iret (sp 0 0xF6) = .next t ∧ t.NotFaulted) :=
  ⟨⟨_, rfl, notFaulted rfl⟩, ⟨_, rfl, notFaulted rfl⟩, _, rfl, notFaulted rfl⟩

/-- MemoryAccessFollowsItsRules: addresses 256 and 255. -/
theorem test_witness_memory_access : 256 ≤ 256 ∧ 255 < 256 ∧ (sp 0 0).mem.wf = true := by decide

/-- RetReturnsBehindTheCall: the state the CALL leaves meets the premises on `u`. -/
theorem test_witness_ret_returns :
    ∃ t, exec (.call (regByte 7)) ((sp 0 1).setPc 253) = .next t ∧ t.reg SP = 0 ∧ t.mem.read 0 = 255 :=
  ⟨_, rfl, rfl, rfl⟩

/-- PopUndoesPush: SP = 1. -/
theorem test_witness_pop_undoes_push : (sp 0 1).mem.wf = true ∧ (sp 0 1).reg SP ≠ 0 := by decide

/-- StoreIsSeenByTheNextFetch: the state the ST leaves, with `pc` at the stored byte, address 255. -/
theorem test_witness_store_is_seen :
    (sp 255 1).mem.wf = true ∧ ∃ t, exec (.st (regByte 0) (regByte 7)) (sp 255 1) = .next t ∧
      (t.setPc 255).mem = t.mem ∧ (t.setPc 255).pc = ((sp 255 1).reg 0).setWidth 9 :=
  ⟨rfl, _, rfl, rfl, rfl⟩

/-- IM, IS and SP as given, `pc` at 255. -/
def ints (im is v : Byte) : State := (mk 0 [] #v[1, 2, 3, 4, 5, im, is, v]).setPc 255

/-- EachCycleBeginsWithThePoll: Disabled; nothing enabled pending; line 1 the lowest; a dispatch that succeeds, and one that
faults. -/
theorem test_witness_poll :
    (ints 0 0xFF 9).reg IM = 0 ∧ (ints 0xFE 1 9).reg IM &&& (ints 0xFE 1 9).reg IS = 0 ∧
      ((ints 6 0xFF 9).reg IM ≠ 0 ∧ ((ints 6 0xFF 9).reg IM &&& (ints 6 0xFF 9).reg IS).getLsbD 1 = true ∧
        ∀ m < (1 : Line), ((ints 6 0xFF 9).reg IM &&& (ints 6 0xFF 9).reg IS).getLsbD m = false) ∧
      (∃ s2, pollDispatch .standard (pollRequests (ints 1 1 9)) = .ok s2) ∧
      (∃ f, pollDispatch .standard (pollRequests (ints 1 1 8)) = .error f) :=
  ⟨by decide, by decide, by decide, ⟨_, rfl⟩, _, rfl⟩

/-- DispatchSavesTheContext: lines 0, 1 and 2, with `pc` = 255 and SP = 9. -/
theorem test_witness_dispatch :
    (highVectors.vecHigh 2 = some 0xFA ∧ 2 ≤ (2 : Line).val) ∧ (ints 1 1 9).pc.toNat ≤ 255 ∧
      9 ≤ ((ints 1 1 9).reg SP).toNat ∧ (ints 1 1 9).mem.wf = true ∧
      (∀ n : Line, n.val < 3 → ∃ t, dispatch highVectors n (ints 1 1 9) = .ok t) := by
  refine ⟨by decide, by decide, by decide, by decide, fun n h => ?_⟩
  obtain rfl | rfl | rfl : n = 0 ∨ n = 1 ∨ n = 2 := by revert h; revert n; decide
  · exact ⟨_, rfl⟩
  · exact ⟨_, rfl⟩
  · exact ⟨_, rfl⟩

/-- DispatchFaultsInOrder: line 2 without a vector; `pc` = 256; `pc` = 255 with SP = 8. -/
theorem test_witness_dispatch_faults :
    (2 ≤ (2 : Line).val ∧ Config.Params.standard.vecHigh 2 = none) ∧
      ((1 : Line).val < 2 ∧ 255 < ((ints 1 1 9).setPc 256).pc.toNat) ∧
      ((highVectors.vecHigh 7).isSome = true ∧ (ints 1 1 8).pc.toNat ≤ 255 ∧ ((ints 1 1 8).reg SP).toNat < 9) := by decide

/-- IretUndoesDispatch: the dispatched state itself meets the premises on `u`. -/
theorem test_witness_iret_undoes_dispatch :
    (ints 1 1 9).pc.toNat ≤ 255 ∧ 9 ≤ ((ints 1 1 9).reg SP).toNat ∧ (ints 1 1 9).mem.wf = true ∧
      ∃ t, dispatch .standard 0 (ints 1 1 9) = .ok t ∧ t.reg SP = 0 :=
  ⟨by decide, by decide, rfl, _, rfl, rfl⟩

/-- OnlyIretOrAWriteToR5Enables: LDI R5,1, and IRET. -/
theorem test_witness_enables :
    ((mk 0 [0x82, 5, 1] (rr 0 0)).run = .running ∧ (mk 0 [0x82, 5, 1] (rr 0 0)).reg IM = 0 ∧
      ∃ t, stepWith .standard (mk 0 [0x82, 5, 1] (rr 0 0)) = .next t ∧ t.NotFaulted ∧ t.reg IM ≠ 0) ∧
    (inHandler.run = .running ∧ inHandler.reg IM = 0 ∧
      ∃ t, stepWith .standard inHandler = .next t ∧ t.NotFaulted ∧ t.reg IM ≠ 0) :=
  ⟨⟨rfl, rfl, _, rfl, notFaulted rfl, by decide⟩, rfl, rfl, _, rfl, notFaulted rfl, by decide⟩

/-- TimerDueStaysUntilIret. -/
theorem test_witness_timer_due :
    inHandler.timerDue = true ∧ ∃ t, stepWith .standard inHandler = .next t ∧ t.timerDue = false := ⟨rfl, _, rfl, rfl⟩

/-- StepRunsTheDecodedInstruction: a fault, an instruction that sets `pc`, one that does not. -/
theorem test_witness_step_runs :
    (∃ t r, exec (.div 0 1) (pollRequests (mk 0 [0xA3, 0, 1] (rr 0 0))) = .next t ∧ t.run = .faulted r) ∧
    (selectLine (pollRequests (mk 0 [0x54, 0] (rr 0 0))) = none ∧
      decode (fetchBytes (mk 0 [0x54, 0] (rr 0 0))) = .ok (.jmp 0, [0]) ∧
      ∃ t, exec (.jmp 0) (pollRequests (mk 0 [0x54, 0] (rr 0 0))) = .next t ∧ t.NotFaulted) ∧
    (selectLine (pollRequests (mk 253 [0x82, 1, 5] (rr 0 0))) = none ∧
      decode (fetchBytes (mk 253 [0x82, 1, 5] (rr 0 0))) = .ok (.ldi 1 5, []) ∧
      ∃ t, exec (.ldi 1 5) (pollRequests (mk 253 [0x82, 1, 5] (rr 0 0))) = .next t ∧ t.NotFaulted) :=
  ⟨⟨_, _, rfl, rfl⟩, ⟨rfl, rfl, _, rfl, notFaulted rfl⟩, rfl, rfl, _, rfl, notFaulted rfl⟩

/-- PcAdvancesByTheLength: LDI ending at 255, and JMP. -/
theorem test_witness_pc_advances :
    (Executes .standard (mk 253 [0x82, 1, 5] (rr 0 0)) (pollRequests (mk 253 [0x82, 1, 5] (rr 0 0))) (.ldi 1 5) ∧
      ∃ t, stepWith .standard (mk 253 [0x82, 1, 5] (rr 0 0)) = .next t ∧ t.NotFaulted) ∧
    (Executes .standard (mk 0 [0x54, 0] (rr 0 0)) (pollRequests (mk 0 [0x54, 0] (rr 0 0))) (.jmp 0) ∧
      ∃ t, stepWith .standard (mk 0 [0x54, 0] (rr 0 0)) = .next t ∧ t.NotFaulted) :=
  ⟨⟨⟨rfl, rfl, _, rfl⟩, _, rfl, notFaulted rfl⟩, ⟨rfl, rfl, _, rfl⟩, _, rfl, notFaulted rfl⟩

/-- FlagsAreReadOnlyByJumpsAndDispatch: JMP is no conditional jump; 0xFF and 0x07 agree on bits 0 to 2; a dispatch succeeds
at SP = 9. -/
theorem test_witness_flags_read :
    (∀ mk ∈ condJumps, ∀ a, Instr.jmp 0 ≠ mk a) ∧ (∀ k < 3, (0xFF : Byte).getLsbD k = (0x07 : Byte).getLsbD k) ∧
      (ints 1 1 9).mem.wf = true ∧ ∃ t, dispatch .standard 0 (ints 1 1 9) = .ok t :=
  ⟨by simp [condJumps], by decide, rfl, _, rfl⟩

/-- FlagsAreReadOnlyByJumpsAndDispatch: a dispatch that faults; one whose vector 0xF8 is not the frame byte of FL at SP - 2, and
one, at SP = 0xFA, whose vector is. -/
theorem test_witness_dispatch_flags :
    (∃ e, dispatch .standard 0 (ints 1 1 8) = .error e) ∧ vectorAddress .standard 0 = .ok 0xF8 ∧
      (0xF8 : Byte).toNat ≠ ((ints 1 1 9).reg SP).toNat - 2 ∧ (0xF8 : Byte).toNat = ((ints 1 1 0xFA).reg SP).toNat - 2 ∧
      ∃ t, dispatch .standard 0 (ints 1 1 0xFA) = .ok t ∧ t.NotFaulted :=
  ⟨⟨_, rfl⟩, rfl, by decide, by decide, _, rfl, notFaulted rfl⟩

/-- DispatchingCycleRunsTheHandler: the handler's first instruction is a HLT. -/
theorem test_witness_dispatching_cycle :
    beforeTimer.run = .running ∧ selectLine (pollRequests beforeTimer) = some 0 ∧
      ∃ s2 rest t, dispatch .standard 0 (pollRequests beforeTimer) = .ok s2 ∧ decode (fetchBytes s2) = .ok (.hlt, rest) ∧
        exec .hlt s2 = .next t ∧ t.NotFaulted :=
  ⟨rfl, rfl, _, _, _, rfl, rfl, rfl, notFaulted rfl⟩

/-- Parameters with NOP_AT_00 true and the default opcode map. -/
def nopParams : Config.Params := { Config.Params.standard with nopAt00 := true }

/-- FetchFaultsInOrder: 0x00 at 255 is unknown under the default map and a no-op with NOP_AT_00; 0x80 is unknown and none. -/
theorem test_witness_fetch_nop :
    UnknownUnder nopParams ((mk 255 [] (rr 0 0)).mem.read 255) ∧ nopParams.nopAt00 = true ∧
      (mk 255 [] (rr 0 0)).mem.read 255 = 0 ∧ UnknownUnder nopParams 0x80 ∧
      ¬ (nopParams.nopAt00 = true ∧ (mk 255 [0x80] (rr 0 0)).mem.read 255 = 0) := by
  refine ⟨?_, rfl, rfl, ?_, by decide⟩
  · rintro row h
    cases h
    decide
  · rintro row h
    cases h
    decide

/-- LowestEnabledPendingLineIsSelected: line 1 is the lowest of IM & IS; line 0 is pending and masked, over a poll that
dispatches line 1. -/
theorem test_witness_selection :
    (ints 6 0xFF 9).reg IM ≠ 0 ∧ selectLine (ints 6 0xFF 9) = some 1 ∧ ((ints 6 0xFF 9).reg IM).getLsbD 0 = false ∧
      ∃ t, pollDispatch .standard (ints 6 0xFF 9) = .ok t ∧ (t.reg IS).getLsbD 0 = true :=
  ⟨by decide, by decide, by decide, _, rfl, by decide⟩

/-- log 27: a map that gives 0x00 the row of HLT wins over NOP_AT_00 true. -/
theorem test_opcode_map_wins_over_nop_at_00 :
    (match stepWith { nopParams with opcodeMap := fun op => if op = 0 then some 0x01 else none } (mk 0 [] (rr 0 0)) with
      | .next t => some (t.run, t.pc)
      | .fault _ => none
      | .refused _ => none) = some (.halted, 1) := by decide

/-- FetchFaultsInOrder: `pc` = 256; an unknown opcode at 255; LDI at 254. -/
theorem test_witness_fetch_faults :
    selectLine (pollRequests (mk 256 [] (rr 0 0))) = none ∧ 255 < (mk 256 [] (rr 0 0)).pc.toNat ∧
      (mk 255 [0x80] (rr 0 0)).mem.read 255 ∉ knownOpcodes ∧
      ((mk 254 [0x82, 0] (rr 0 0)).mem.read 254 = (Instr.ldi 0 0).opcode ∧ 255 < 254 + (Instr.ldi 0 0).operands.length) := by
  decide

/-- StepKeepsInvariant: a step to `pc` = 256. -/
theorem test_witness_invariant :
    (mk 253 [0x82, 1, 5] (rr 0 0)).Inv ∧ ∃ t, step (mk 253 [0x82, 1, 5] (rr 0 0)) = .next t ∧ t.pc = 256 :=
  ⟨⟨rfl, by decide⟩, _, rfl, rfl⟩

/-- TerminalStatesExecuteNoCycle, OnlyHltHalts: a HLT step ends in Halted; a fault in Faulted. -/
theorem test_witness_terminal :
    (∃ t, stepWith .standard (mk 0 [0x01] (rr 0 0)) = .next t ∧ t.run = .halted) ∧
      ∃ t r, stepWith .standard (mk 0 [0x00] (rr 0 0)) = .next t ∧ t.run = .faulted r :=
  ⟨⟨_, rfl, rfl⟩, _, _, rfl, rfl⟩

/-- OnlyCmpAndIretWriteFlags: CMP, and IRET. -/
theorem test_witness_flags :
    (∃ t, stepWith .standard (mk 0 [0xA7, 0, 1] (rr 0 0)) = .next t ∧ t.NotFaulted ∧ t.fl ≠ (mk 0 [] (rr 0 0)).fl) ∧
      ∃ t, stepWith .standard inHandler = .next t ∧ t.NotFaulted ∧ t.fl ≠ inHandler.fl :=
  ⟨⟨_, rfl, notFaulted rfl, by decide⟩, _, rfl, notFaulted rfl, by decide⟩

/-- TraceGrowsOnlyByOutput: PRN, and PRA. -/
theorem test_witness_trace :
    (∃ t, stepWith .standard (mk 0 [0x47, 0] (rr 0 0)) = .next t ∧ t.trace ≠ []) ∧
      ∃ t, stepWith .standard (mk 0 [0x48, 0] (rr 0 0)) = .next t ∧ t.trace ≠ [] :=
  ⟨⟨_, rfl, by decide⟩, _, rfl, by decide⟩

/-- FaultRecordHasItsFields: a DIV that is executed and faults. -/
theorem test_witness_record_of_an_instruction :
    Executes .standard (mk 0 [0xA3, 0, 1] (rr 0 0)) (pollRequests (mk 0 [0xA3, 0, 1] (rr 0 0))) (.div 0 1) ∧
      ∃ t r, stepWith .standard (mk 0 [0xA3, 0, 1] (rr 0 0)) = .next t ∧ t.run = .faulted r :=
  ⟨⟨rfl, rfl, _, rfl⟩, _, _, rfl, rfl⟩

/-- UnsupportedOperationIsNeverRaised, FaultRecordHasItsFields: a record with an address, and one with a line. -/
theorem test_witness_records :
    (∃ t r, stepWith .standard (mk 256 [] (rr 0 0)) = .next t ∧ t.run = .faulted r ∧ r.addr.isSome = true) ∧
      ∃ t r, stepWith .standard (ints 4 4 9) = .next t ∧ t.run = .faulted r ∧ r.line.isSome = true :=
  ⟨⟨_, _, rfl, rfl, rfl⟩, _, _, rfl, rfl, rfl⟩

/-- ResetLeavesTheStatedValues, ResetMeetsInvariant: an image of 256 bytes is preloaded. -/
theorem test_witness_preload :
    (List.replicate 256 (1 : Byte)).length ≤ 256 ∧
      ∃ t, (State.resetWith 1 2 3 4 5).preload (List.replicate 256 1) = some t := by
  have h : (List.replicate 256 (1 : Byte)).length ≤ 256 := Nat.le_of_eq (List.length_replicate ..)
  exact ⟨h, _, if_pos h⟩

end Sys2Proof.Tests
end

section
/-! The state after reset: its program counter and its flags (10_state.md R39, R43). -/

namespace Sys2Proof.Machine

@[simp] theorem State.resetWith_pc (r0 r1 r2 r3 r4 : Byte) : (State.resetWith r0 r1 r2 r3 r4).pc = 0 := rfl

@[simp] theorem State.resetWith_fl (r0 r1 r2 r3 r4 : Byte) : (State.resetWith r0 r1 r2 r3 r4).fl = 0 := rfl

@[simp] theorem flagE_zero : flagE 0 = false := rfl

@[simp] theorem flagG_zero : flagG 0 = false := rfl

@[simp] theorem flagL_zero : flagL 0 = false := rfl

/-- Settles O51: the draws of R0 to R4 reach neither `pc` nor FL, and the FL byte 0 has no flag set. -/
theorem resetClearsPcAndFlags : Obligations.ResetClearsPcAndFlags := by
  intro r0 r1 r2 r3 r4
  have hpc := State.resetWith_pc r0 r1 r2 r3 r4
  have hfl := State.resetWith_fl r0 r1 r2 r3 r4
  rw [hfl]
  exact ⟨hpc, rfl, flagE_zero, flagG_zero, flagL_zero⟩

end Sys2Proof.Machine
end

section
/-! Memory access at any address: it completes inside the address space and faults outside (20_memory.md R61, R62). -/

namespace Sys2Proof.Machine

theorem memRead_of_lt {a : Nat} (s : State) (h : a < Config.memSize) : memRead s a = .ok (s.mem.read a) :=
  if_pos h

theorem memRead_of_ge {a : Nat} (s : State) (h : Config.memSize ≤ a) :
    memRead s a = .error { kind := .addressOutOfRange, addr := some a } :=
  if_neg (Nat.not_lt.mpr h)

theorem memWrite_of_lt {a : Nat} (s : State) (v : Byte) (h : a < Config.memSize) :
    memWrite s a v = .ok (s.setMem (s.mem.write a v)) :=
  if_pos h

theorem memWrite_of_ge {a : Nat} (s : State) (v : Byte) (h : Config.memSize ≤ a) :
    memWrite s a v = .error { kind := .addressOutOfRange, addr := some a } :=
  if_neg (Nat.not_lt.mpr h)

/-- Settles O29: inside the address space a write is `Memory.write`, which keeps the canonical form and of which read after
write holds. -/
theorem memoryAccessFollowsItsRules : Obligations.MemoryAccessFollowsItsRules := by
  intro s a v
  refine ⟨fun hge => ⟨memRead_of_ge s hge, memWrite_of_ge s v hge⟩, memRead_of_lt s, fun hlt hwf => ?_⟩
  have hcanonical : (s.mem.write a v).wf = true := Memory.wf_write v hwf hlt
  have hread : ∀ b, (s.mem.write a v).read b = if b = a then v else s.mem.read b :=
    fun b => Memory.read_write a v b hwf
  exact ⟨s.setMem (s.mem.write a v), memWrite_of_lt s v hlt, hcanonical, hread, rfl⟩

end Sys2Proof.Machine
end

section
/-! The line the poll selects, and the bits of IS that a dispatch leaves (60_exceptions.md R215, R216). -/

namespace Sys2Proof.Machine

/-- While Enabled, the line selected is the lowest set bit of IM & IS (60_exceptions.md R215). -/
theorem selectLine_eq_some_iff {s : State} {n : Line} (henabled : s.reg IM ≠ 0) :
    selectLine s = some n ↔ (s.reg IM &&& s.reg IS).getLsbD n = true ∧
      ∀ m : Line, m < n → (s.reg IM &&& s.reg IS).getLsbD m = false := by
  rw [selectLine, if_neg henabled]
  exact ⟨lowestLine_inv, fun ⟨hset, hlower⟩ => lowestLine_eq_some hset hlower⟩

/-- While Disabled, no line is selected (60_exceptions.md R214). -/
theorem selectLine_eq_none_of_disabled {s : State} (hdisabled : s.reg IM = 0) : selectLine s = none :=
  if_pos hdisabled

/-- Only a line that IM enables is selected (60_exceptions.md R215). -/
theorem enabled_of_selectLine {s : State} {n : Line} (h : selectLine s = some n) : (s.reg IM).getLsbD n = true := by
  by_cases hIM : s.reg IM = 0
  · rw [selectLine_eq_none_of_disabled hIM] at h
    cases h
  · have hmasked := ((selectLine_eq_some_iff hIM).mp h).1
    rw [BitVec.getLsbD_and, Bool.and_eq_true] at hmasked
    exact hmasked.1

/-- Clearing a bit of a byte leaves every other bit. -/
theorem getLsbD_and_not_one_shiftLeft_of_ne (b : Byte) {n m : Nat} (h : m ≠ n) :
    (b &&& ~~~((1 : Byte) <<< n)).getLsbD m = b.getLsbD m := by
  rcases Nat.lt_or_ge m 8 with hm | hm
  · have hclear : m < n ∨ m - n ≠ 0 := by omega
    simp [hm, hclear]
  · rw [BitVec.getLsbD_of_ge _ _ hm, BitVec.getLsbD_of_ge _ _ hm]

/-- A dispatch that completes leaves the IS bit of every other line (60_exceptions.md R216). -/
theorem dispatch_is_getLsbD_of_ne {p : Config.Params} {n m : Line} {s t : State} (h : dispatch p n s = .ok t)
    (hne : m ≠ n) : (t.reg IS).getLsbD m = (s.reg IS).getLsbD m := by
  rw [dispatch_is h]
  exact getLsbD_and_not_one_shiftLeft_of_ne _ (Fin.val_ne_of_ne hne)

/-- Settles O54: the line selected is an enabled one, so a masked line is another than the one a dispatch acknowledges. -/
theorem lowestEnabledPendingLineIsSelected : Obligations.LowestEnabledPendingLineIsSelected := by
  have hmaskedNotSelected : ∀ (s : State) (m : Line), (s.reg IM).getLsbD m = false → selectLine s ≠ some m :=
    fun s m hmasked hsel => Bool.false_ne_true (hmasked.symm.trans (enabled_of_selectLine hsel))
  refine ⟨fun s n => selectLine_eq_some_iff, hmaskedNotSelected, fun p s t m h hmasked => ?_⟩
  obtain rfl | ⟨n, hsel, hdispatch⟩ := pollDispatch_frame h
  · rfl
  · have hne : m ≠ n := fun hmn => hmaskedNotSelected s m hmasked (hmn ▸ hsel)
    exact dispatch_is_getLsbD_of_ne hdispatch hne

end Sys2Proof.Machine
end

section
/-! Decoding and encoding are inverse, and what the decoder rejects (30_encoding.md R82, R85, R87, R93). -/

namespace Sys2Proof

open Sys2Proof.Claims

/-- The instructions a row of the opcode map makes have the row's opcode byte, and as operands the bytes taken for them. -/
def Form.Agrees (op : Byte) : Form → Prop
  | .f0 i => encode i = [op]
  | .f1 mk => ∀ a, encode (mk a) = [op, a]
  | .f2 mk => ∀ a b, encode (mk a b) = [op, a, b]

theorem opcodeTable_agrees : ∀ r ∈ opcodeTable, r.2.Agrees r.1 := by
  simp [opcodeTable, Form.Agrees, encode, Instr.opcode, Instr.operands]

theorem opcodeForm_agrees {op : Byte} {f : Form} (h : opcodeForm op = some f) : f.Agrees op :=
  opcodeTable_agrees _ (opcodeForm_mem h)

/-- Only an instruction's own encoding decodes to it. -/
theorem eq_encode_append_of_decode {bs rest : List Byte} {i : Instr} (h : decode bs = .ok (i, rest)) :
    bs = encode i ++ rest := by
  rcases bs with _ | ⟨op, tl⟩
  · cases h
  cases hform : opcodeForm op with
  | none => simp [decode, hform] at h
  | some f =>
    have hagrees := opcodeForm_agrees hform
    cases f with
    | f0 j =>
      simp only [decode, hform] at h
      cases h
      rw [show encode i = [op] from hagrees]; rfl
    | f1 mk =>
      rcases tl with _ | ⟨a, tl⟩ <;> simp only [decode, hform] at h <;> cases h
      rw [show encode (mk a) = [op, a] from hagrees a]; rfl
    | f2 mk =>
      rcases tl with _ | ⟨a, _ | ⟨b, tl⟩⟩ <;> simp only [decode, hform] at h <;> cases h
      rw [show encode (mk a b) = [op, a, b] from hagrees a b]; rfl

theorem decode_eq_ok_iff (bs : List Byte) (i : Instr) (rest : List Byte) :
    decode bs = .ok (i, rest) ↔ bs = encode i ++ rest :=
  ⟨eq_encode_append_of_decode, fun h => h ▸ decode_encode_append i rest⟩

/-- With an opcode map the opcode byte is one the map gives the row of the instruction (00_scope.md R9). -/
theorem decodeWith_eq_ok_iff (m : Byte → Option Byte) (bs : List Byte) (i : Instr) (rest : List Byte) :
    decodeWith m bs = .ok (i, rest) ↔ ∃ op, m op = some i.opcode ∧ bs = op :: i.operands ++ rest := by
  constructor
  · intro h
    obtain ⟨op, row, tl, rfl, hrow, hdec⟩ := decodeWith_ok h
    have hbytes : row :: tl = i.opcode :: (i.operands ++ rest) := eq_encode_append_of_decode hdec
    obtain ⟨rfl, rfl⟩ := List.cons.inj hbytes
    exact ⟨op, hrow, rfl⟩
  · rintro ⟨op, hrow, rfl⟩
    have hdec : decode (i.opcode :: (i.operands ++ rest)) = .ok (i, rest) := decode_encode_append i rest
    simp only [decodeWith, List.cons_append, hrow, hdec, Except.mapError]

/-- Settles O2: the rows of the opcode map agree with `encode`, and no other row has the same opcode byte. -/
theorem decodeAnswersExactlyTheEncoding : Obligations.DecodeAnswersExactlyTheEncoding :=
  ⟨decode_eq_ok_iff, decodeWith_eq_ok_iff⟩

theorem knownOpcodes_eq_opcodeTable : knownOpcodes = opcodeTable.map Prod.fst := rfl

theorem opcodeForm_eq_none_iff (op : Byte) : opcodeForm op = none ↔ op ∉ knownOpcodes := by
  rw [opcodeForm, List.lookup_eq_none_iff, knownOpcodes_eq_opcodeTable]
  simp only [List.mem_map, not_exists, not_and, bne_iff_ne, ne_eq, eq_comm (a := op)]

/-- The opcode is matched before any operand is looked at (30_encoding.md R87). -/
theorem decode_eq_unknownOpcode_iff (op : Byte) (rest : List Byte) :
    decode (op :: rest) = .error (.unknownOpcode op) ↔ op ∉ knownOpcodes := by
  rw [← opcodeForm_eq_none_iff]
  cases hform : opcodeForm op with
  | none => simp [decode, hform]
  | some f =>
    cases f with
    | f0 i => simp [decode, hform]
    | f1 mk => rcases rest with _ | ⟨a, rest⟩ <;> simp [decode, hform]
    | f2 mk => rcases rest with _ | ⟨a, _ | ⟨b, rest⟩⟩ <;> simp [decode, hform]

theorem opcode_mem_knownOpcodes (i : Instr) : i.opcode ∈ knownOpcodes := by
  by_contra hunknown
  have herror := (decode_eq_unknownOpcode_iff i.opcode (i.operands ++ [])).mpr hunknown
  have hok : decode (i.opcode :: (i.operands ++ [])) = .ok (i, []) := decode_encode_append i []
  rw [hok] at herror
  cases herror

/-- The opcode byte alone fixes the number of operand bytes (30_encoding.md R81). -/
theorem operands_length_of_opcode_eq {i j : Instr} (h : i.opcode = j.opcode) : i.operands.length = j.operands.length := by
  rw [← opOperandCount_opcode, ← opOperandCount_opcode, h]

theorem opcode_and_length_of_encode {i : Instr} {op : Byte} {os : List Byte} (h : encode i = op :: os) :
    i.opcode = op ∧ i.operands.length = os.length := by
  obtain ⟨hop, hos⟩ := List.cons.inj h
  exact ⟨hop, congrArg List.length hos⟩

/-- An instruction cut off is rejected by the number of the first operand byte that is not there (30_encoding.md R93). -/
theorem decode_cut {i : Instr} {tl : List Byte} (h : tl.length < i.operands.length) :
    decode (i.opcode :: tl) = .error (.missingOperand i.opcode (tl.length + 1)) := by
  cases hform : opcodeForm i.opcode with
  | none => exact absurd (opcode_mem_knownOpcodes i) ((opcodeForm_eq_none_iff _).mp hform)
  | some f =>
    have hagrees := opcodeForm_agrees hform
    cases f with
    | f0 j =>
      obtain ⟨hop, hlen⟩ := opcode_and_length_of_encode hagrees
      rw [← operands_length_of_opcode_eq hop, hlen] at h
      exact absurd h (Nat.not_lt_zero _)
    | f1 mk =>
      obtain ⟨hop, hlen⟩ := opcode_and_length_of_encode (hagrees 0)
      rw [← operands_length_of_opcode_eq hop, hlen] at h
      obtain rfl : tl = [] := List.length_eq_zero_iff.mp (Nat.lt_one_iff.mp h)
      simp only [decode, hform, List.length_nil]
    | f2 mk =>
      obtain ⟨hop, hlen⟩ := opcode_and_length_of_encode (hagrees 0 0)
      rw [← operands_length_of_opcode_eq hop, hlen] at h
      rcases tl with _ | ⟨a, _ | ⟨b, tl⟩⟩
      · simp only [decode, hform, List.length_nil]
      · simp only [decode, hform, List.length_cons, List.length_nil]
      · simp at h

/-- Settles O3: the rows of the opcode map are the 32 known bytes, and an encoding cut off lacks operand bytes. -/
theorem decodeRejectsByName : Obligations.DecodeRejectsByName := by
  refine ⟨decode_eq_unknownOpcode_iff, fun i bs hne hprefix hproper => ?_, opcodeTable_distinct, opcodeTable_length⟩
  rcases bs with _ | ⟨op, tl⟩
  · exact absurd rfl hne
  · obtain ⟨rfl, htl⟩ := List.cons_prefix_cons.mp hprefix
    have hcut : tl.length < i.operands.length :=
      lt_of_le_of_ne htl.length_le fun hlen => hproper (congrArg _ (htl.eq_of_length hlen))
    exact decode_cut hcut

/-- Settles O1: each word is the encoding of its instruction. -/
theorem decodesWordsWrittenFromTheSpec : Obligations.DecodesWordsWrittenFromTheSpec :=
  ⟨decode_encode_append (.add 2 5) [], decode_encode_append (.not 3) [], decode_encode_append (.cmp 1 0) [],
    decode_encode_append (.push 7) [], decode_encode_append (.call 2) [], decode_encode_append (.jge 1) [],
    decode_encode_append (.ldi 0 255) [], decode_encode_append (.st 1 0) [], decode_encode_append (.pra 3) [],
    decode_encode_append .iret []⟩

end Sys2Proof
end

section
/-! What an instruction answers, by its effect: the completed state, or the fault its effect raises. -/

namespace Sys2Proof.Machine

theorem exec_of_effectOf_ok {i : Instr} {s t : State} (h : effectOf i s = .ok t) : exec i s = .next t := by
  rw [exec_eq_conclude, h, conclude_ok]

theorem exec_of_effectOf_error {i : Instr} {s : State} {f : FaultInfo} (h : effectOf i s = .error f) :
    ∃ t, exec i s = .next t ∧ t.FaultedFrom s (some i.opcode) f := by
  rw [exec_eq_conclude, h, conclude_error]
  exact ⟨_, rfl, raiseFault_faultedFrom s _ f⟩

theorem not_notFaulted_raiseFault (s : State) (op : Option Byte) (f : FaultInfo) : ¬ (raiseFault s op f).NotFaulted :=
  fun h => h _ rfl

theorem effectOf_of_exec {i : Instr} {s t : State} (h : exec i s = .next t) (hnf : t.NotFaulted) :
    effectOf i s = .ok t := by
  obtain hok | ⟨f, -, rfl⟩ := exec_next_cases h
  · exact hok
  · exact absurd hnf (not_notFaulted_raiseFault s _ f)

/-- Settles O23: an effect completes or raises a fault, and either way there is a next state. -/
theorem everyInstructionAnswersNext : Obligations.EveryInstructionAnswersNext := by
  intro i s
  cases heff : effectOf i s with
  | ok t => exact ⟨t, exec_of_effectOf_ok heff⟩
  | error f =>
    obtain ⟨t, hexec, -⟩ := exec_of_effectOf_error heff
    exact ⟨t, hexec⟩

/-! ### Operand bytes that name no register -/

theorem bindReg_bad {α : Type} {o : Byte} (h : 8 ≤ o.toNat) (k : RegIx → Except FaultInfo α) :
    (reg o >>= k) = .error { kind := .invalidRegister } := by
  rw [reg_bad h]; rfl

theorem bindReg_bindReg_bad {α : Type} {o1 o2 : Byte} (h : 8 ≤ o1.toNat ∨ 8 ≤ o2.toNat)
    (k : RegIx → RegIx → Except FaultInfo α) :
    (reg o1 >>= fun a => reg o2 >>= k a) = .error { kind := .invalidRegister } := by
  cases hreg : reg o1 with
  | error f =>
    obtain ⟨-, rfl⟩ := reg_eq_error hreg
    rfl
  | ok a =>
    have h1 : ¬ 8 ≤ o1.toNat := fun hbad => by rw [reg_bad hbad] at hreg; cases hreg
    exact bindReg_bad (h.resolve_left h1) (k a)

/-- The register operands are checked before anything else is looked at (30_encoding.md R83, 60_exceptions.md R208). -/
theorem effectOf_of_ill_formed {i : Instr} (h : i.wf = false) (s : State) :
    effectOf i s = .error { kind := .invalidRegister } := by
  have hbad : ∃ o ∈ i.regOperands, 8 ≤ o.toNat := by simpa [Instr.wf] using h
  cases i with
  | add a b | sub a b | mul a b | div a b | mod a b | and a b | or a b | xor a b | shl a b | shr a b | cmp a b | ld a b
  | st a b => exact bindReg_bindReg_bad (by simpa [Instr.regOperands] using hbad) _
  | inc a | dec a | not a | call a | jmp a | jeq a | jne a | jgt a | jlt a | jle a | jge a | ldi a | push a | pop a
  | prn a | pra a => exact bindReg_bad (by simpa [Instr.regOperands] using hbad) _
  | ret | iret | hlt => simp [Instr.regOperands] at hbad

/-- Settles O24: the effect of an ill-formed instruction is InvalidRegister in every state. -/
theorem illFormedInstructionRaisesInvalidRegister : Obligations.IllFormedInstructionRaisesInvalidRegister :=
  fun _ s h => exec_of_effectOf_error (effectOf_of_ill_formed h s)

end Sys2Proof.Machine
end

section
/-! The effect of each instruction on registers as operands: an equation for the instructions that are no shared shape. -/

namespace Sys2Proof.Machine

theorem effectOf_cmp (ra rb : RegIx) (s : State) :
    effectOf (.cmp (regByte ra) (regByte rb)) s = .ok (s.setFl (compareFlags (s.reg ra) (s.reg rb))) := by
  simp [effectOf, bind, Except.bind, pure, Except.pure]

theorem effectOf_ld (ra rb : RegIx) (s : State) :
    effectOf (.ld (regByte ra) (regByte rb)) s = .ok (s.setReg ra (s.mem.read (s.reg rb).toNat)) := by
  simp [effectOf, bind, Except.bind, pure, Except.pure]

theorem effectOf_st (ra rb : RegIx) (s : State) :
    effectOf (.st (regByte ra) (regByte rb)) s = .ok (s.setMem (s.mem.write (s.reg ra).toNat (s.reg rb))) := by
  simp [effectOf, bind, Except.bind]

/-- The register stored is read after the decrement (41_control_flow.md R141). -/
theorem effectOf_push (r : RegIx) (s : State) :
    effectOf (.push (regByte r)) s = pushByte ((s.setReg SP (s.reg SP - 1)).reg r) s := by
  by_cases h0 : s.reg SP = 0
  · simp [effectOf, pushByte, decSp_zero h0, bind, Except.bind]
  · simp [effectOf, pushByte, decSp_ok h0, bind, Except.bind]

/-- SP is incremented as it stands after the register write (41_control_flow.md R142). -/
theorem effectOf_pop (r : RegIx) (s : State) :
    effectOf (.pop (regByte r)) s = incSp (s.setReg r (s.mem.read (s.reg SP).toNat)) := by
  simp [effectOf, bind, Except.bind]

theorem effectOf_call_far {s : State} (h : 254 ≤ s.pc.toNat) (r : RegIx) :
    effectOf (.call (regByte r)) s = .error { kind := .addressOutOfRange, addr := some (s.pc.toNat + 2 : Nat) } := by
  have hfar : s.pc.toNat + 2 > 255 := by omega
  simp [effectOf, bind, Except.bind, hfar]

theorem effectOf_call_near {s : State} (h : s.pc.toNat ≤ 253) (r : RegIx) :
    effectOf (.call (regByte r)) s =
      (pushByte (BitVec.ofNat 8 (s.pc.toNat + 2)) s).map fun t => t.setPc (toPc (t.reg r)) := by
  have hnear : ¬ s.pc.toNat + 2 > 255 := by omega
  simp only [effectOf, reg_regByte, bind, Except.bind, pure, Except.pure, hnear, if_false]
  cases pushByte (BitVec.ofNat 8 (s.pc.toNat + 2)) s <;> rfl

theorem effectOf_ret_ok {s : State} (h : s.reg SP ≠ 255) :
    effectOf .ret s = .ok ((s.setReg SP (s.reg SP + 1)).setPc (toPc (s.mem.read (s.reg SP).toNat))) := by
  simp [effectOf, popByte_ok h, bind, Except.bind, pure, Except.pure]

theorem effectOf_ret_top {s : State} (h : s.reg SP = 255) :
    effectOf .ret s = .error { kind := .addressOutOfRange, addr := some 256 } := by
  simp [effectOf, popByte_top h, bind, Except.bind]

/-! ### What such an instruction has done when it completes -/

theorem effectOf_cmp_inv {a b : Byte} {s t : State} (h : effectOf (.cmp a b) s = .ok t) :
    ∃ v, t = s.setFl v := by
  obtain ⟨ra, rfl, hb⟩ := bindReg_ok h
  obtain ⟨rb, rfl, -⟩ := bindReg_ok hb
  rw [effectOf_cmp] at h
  cases h
  exact ⟨_, rfl⟩

theorem effectOf_ld_inv {a b : Byte} {s t : State} (h : effectOf (.ld a b) s = .ok t) :
    ∃ ra v, a = regByte ra ∧ t = s.setReg ra v := by
  obtain ⟨ra, rfl, hb⟩ := bindReg_ok h
  obtain ⟨rb, rfl, -⟩ := bindReg_ok hb
  rw [effectOf_ld] at h
  cases h
  exact ⟨ra, _, rfl, rfl⟩

theorem effectOf_st_inv {a b : Byte} {s t : State} (h : effectOf (.st a b) s = .ok t) :
    ∃ ra v, a = regByte ra ∧ t = s.setMem (s.mem.write (s.reg ra).toNat v) := by
  obtain ⟨ra, rfl, hb⟩ := bindReg_ok h
  obtain ⟨rb, rfl, -⟩ := bindReg_ok hb
  rw [effectOf_st] at h
  cases h
  exact ⟨ra, _, rfl, rfl⟩

/-- PUSH and CALL store one byte at the decremented SP; CALL then sets `pc` (41_control_flow.md R141, R143). -/
theorem effectOf_push_call_inv {i : Instr} {o : Byte} (hi : i = .push o ∨ i = .call o) {s t : State}
    (h : effectOf i s = .ok t) :
    ∃ v pc, t = ((s.setReg SP (s.reg SP - 1)).setMem (s.mem.write (s.reg SP - 1).toNat v)).setPc pc := by
  rcases hi with rfl | rfl
  · obtain ⟨r, rfl, -⟩ := bindReg_ok h
    rw [effectOf_push] at h
    obtain ⟨-, rfl⟩ := pushByte_inv h
    exact ⟨_, s.pc, rfl⟩
  · obtain ⟨r, rfl, -⟩ := bindReg_ok h
    rcases Nat.lt_or_ge s.pc.toNat 254 with hnear | hfar
    · rw [effectOf_call_near (by omega)] at h
      cases hpush : pushByte (BitVec.ofNat 8 (s.pc.toNat + 2)) s with
      | error f => rw [hpush] at h; cases h
      | ok u =>
        rw [hpush] at h
        obtain ⟨-, rfl⟩ := pushByte_inv hpush
        cases h
        exact ⟨_, _, rfl⟩
    · rw [effectOf_call_far hfar] at h
      cases h

theorem effectOf_pop_inv {o : Byte} {s t : State} (h : effectOf (.pop o) s = .ok t) :
    ∃ r v w, o = regByte r ∧ t = (s.setReg r v).setReg SP w := by
  obtain ⟨r, rfl, -⟩ := bindReg_ok h
  rw [effectOf_pop] at h
  obtain ⟨-, rfl⟩ := incSp_inv h
  exact ⟨r, _, _, rfl, rfl⟩

theorem effectOf_ret_inv {s t : State} (h : effectOf .ret s = .ok t) :
    ∃ v pc, t = (s.setReg SP v).setPc pc := by
  by_cases htop : s.reg SP = 255
  · rw [effectOf_ret_top htop] at h
    cases h
  · rw [effectOf_ret_ok htop] at h
    cases h
    exact ⟨_, _, rfl⟩

end Sys2Proof.Machine
end

section
/-! The frames of the instructions: what each leaves unchanged when it completes. -/

namespace Sys2Proof.Machine

open Sys2Proof.Claims

/-- The 13 register-writing ALU instructions, LDI and LD only write their destination register (40_alu.md R110). -/
theorem effectOf_plainDest_inv {i : Instr} {o : Byte} {s t : State} (hdest : plainDest i = some o)
    (h : effectOf i s = .ok t) : ∃ r v, o = regByte r ∧ t = s.setReg r v := by
  cases i with
  | add | sub | mul | and | or | xor | shl | shr =>
    simp only [effectOf] at h
    obtain ⟨r, _, rfl, _, rfl⟩ := binaryOp_ok h
    cases hdest
    exact ⟨r, _, rfl, rfl⟩
  | div | mod =>
    simp only [effectOf] at h
    obtain ⟨r, _, rfl, _, _, rfl⟩ := divisionOp_ok h
    cases hdest
    exact ⟨r, _, rfl, rfl⟩
  | inc | dec | not | ldi =>
    simp only [effectOf] at h
    obtain ⟨r, rfl, rfl⟩ := unaryOp_ok h
    cases hdest
    exact ⟨r, _, rfl, rfl⟩
  | ld =>
    cases hdest
    exact effectOf_ld_inv h
  | _ => cases hdest

/-- CMP, the jumps, HLT, PRN and PRA write no register and no memory. -/
theorem effectOf_writesNoRegister_frame {i : Instr} {s t : State} (hi : writesNoRegister i = true)
    (h : effectOf i s = .ok t) : (∀ r, t.reg r = s.reg r) ∧ t.mem = s.mem := by
  cases i with
  | cmp =>
    obtain ⟨v, rfl⟩ := effectOf_cmp_inv h
    exact ⟨fun _ => rfl, rfl⟩
  | jmp | jeq | jne | jgt | jlt | jle | jge =>
    obtain ⟨_, _, rfl⟩ := condJump_ok h
    exact ⟨fun _ => rfl, rfl⟩
  | hlt =>
    cases h
    exact ⟨fun _ => rfl, rfl⟩
  | prn | pra =>
    obtain ⟨_, _, rfl⟩ := emitReg_ok h
    exact ⟨fun _ => rfl, rfl⟩
  | _ => cases hi

theorem Memory.read_write_same {m : Memory} (a : Nat) (v : Byte) (h : m.wf = true) : (m.write a v).read a = v := by
  rw [Memory.read_write a v a h, if_pos rfl]

theorem Memory.read_write_of_ne {m : Memory} {a b : Nat} (v : Byte) (h : m.wf = true) (hne : b ≠ a) :
    (m.write a v).read b = m.read b := by
  rw [Memory.read_write a v b h, if_neg hne]

/-- Settles O25: a register write keeps every other register and every other field. -/
theorem registerDestinationFrame : Obligations.RegisterDestinationFrame := by
  intro i o s t hdest hexec hnf
  obtain ⟨r, v, rfl, rfl⟩ := effectOf_plainDest_inv hdest (effectOf_of_exec hexec hnf)
  have hregs : ∀ q, regByte q ≠ regByte r → (s.setReg r v).reg q = s.reg q :=
    fun q hq => State.reg_setReg_of_ne s v (fun heq => hq (congrArg regByte heq))
  exact ⟨hregs, rfl, rfl, fun _ => rfl, rfl, rfl, rfl⟩

/-- Settles O26: FL, trace, run state and timer by the frame of all instructions, registers and memory by that of these. -/
theorem noRegisterFrame : Obligations.NoRegisterFrame := by
  intro i s t hi hexec hnf
  have heff := effectOf_of_exec hexec hnf
  obtain ⟨hregs, hmem⟩ := effectOf_writesNoRegister_frame hi heff
  obtain ⟨hfl, htrace, hrun, htimer, -, -⟩ := effectOf_frame heff
  have hiret : i ≠ .iret := by rintro rfl; cases hi
  exact ⟨hregs, fun a => by rw [hmem], htimer hiret, fun hcmp => hfl hcmp hiret, htrace, hrun⟩

/-- Settles O27: one `Memory.write`, at `x[A]` or at the decremented SP. -/
theorem storeFrame : Obligations.StoreFrame := by
  intro s t hwf hnf
  refine ⟨fun ra b hexec => ?_, fun i o hi hexec => ?_⟩
  · obtain ⟨r, v, hr, rfl⟩ := effectOf_st_inv (effectOf_of_exec hexec hnf)
    obtain rfl := regByte_injective hr
    exact ⟨fun a => Memory.read_write_of_ne v hwf, fun _ => rfl, rfl, rfl, rfl, rfl, rfl⟩
  · obtain ⟨v, pc, rfl⟩ := effectOf_push_call_inv hi (effectOf_of_exec hexec hnf)
    exact ⟨fun a => Memory.read_write_of_ne v hwf, fun r hr => State.reg_setReg_of_ne s _ hr, rfl, rfl, rfl, rfl⟩

/-- Settles O28: popping writes registers only. -/
theorem popFrame : Obligations.PopFrame := by
  intro s t hnf
  refine ⟨fun o hexec => ?_, fun hexec => ?_, fun hexec => ?_⟩
  · obtain ⟨r, v, w, rfl, rfl⟩ := effectOf_pop_inv (effectOf_of_exec hexec hnf)
    have hregs : ∀ q, regByte q ≠ regByte r → q ≠ SP → ((s.setReg r v).setReg SP w).reg q = s.reg q := by
      intro q hq hsp
      rw [State.reg_setReg_of_ne _ _ hsp, State.reg_setReg_of_ne _ _ fun heq => hq (congrArg regByte heq)]
    exact ⟨fun _ => rfl, hregs, rfl, rfl, rfl, rfl, rfl⟩
  · obtain ⟨v, pc, rfl⟩ := effectOf_ret_inv (effectOf_of_exec hexec hnf)
    exact ⟨fun _ => rfl, fun r hr => State.reg_setReg_of_ne s v hr, rfl, rfl, rfl, rfl⟩
  · obtain ⟨hmem, hrun, htrace, -, -, -⟩ := interruptReturn_frame (effectOf_of_exec hexec hnf)
    exact ⟨fun a => by rw [hmem], hrun, htrace⟩

/-- An instruction that completes changes a register only as IRET, as POP or with it as its destination; SP apart. -/
theorem effectOf_reg_of_ne {i : Instr} {s t : State} {q : RegIx} (h : effectOf i s = .ok t) (hsp : q ≠ SP)
    (hiret : i ≠ .iret) (hpop : i ≠ .pop (regByte q)) (hdest : plainDest i ≠ some (regByte q)) :
    t.reg q = s.reg q := by
  have hplain : ∀ o, plainDest i = some o → t.reg q = s.reg q := by
    intro o ho
    obtain ⟨r, v, rfl, rfl⟩ := effectOf_plainDest_inv ho h
    exact State.reg_setReg_of_ne s v fun heq => hdest (heq ▸ ho)
  cases i with
  | add a | sub a | mul a | div a | mod a | inc a | dec a | and a | not a | or a | xor a | shl a | shr a | ldi a
  | ld a => exact hplain a rfl
  | cmp | jmp | jeq | jne | jgt | jlt | jle | jge | hlt | prn | pra =>
    exact (effectOf_writesNoRegister_frame rfl h).1 q
  | call o =>
    obtain ⟨v, pc, rfl⟩ := effectOf_push_call_inv (.inr rfl) h
    exact State.reg_setReg_of_ne s _ hsp
  | push o =>
    obtain ⟨v, pc, rfl⟩ := effectOf_push_call_inv (.inl rfl) h
    exact State.reg_setReg_of_ne s _ hsp
  | st a b =>
    obtain ⟨ra, v, -, rfl⟩ := effectOf_st_inv h
    rfl
  | pop o =>
    obtain ⟨r, v, w, rfl, rfl⟩ := effectOf_pop_inv h
    have hr : q ≠ r := fun heq => hpop (congrArg (fun x => Instr.pop (regByte x)) heq.symm)
    rw [State.reg_setReg_of_ne _ _ hsp, State.reg_setReg_of_ne _ _ hr]
  | ret =>
    obtain ⟨v, pc, rfl⟩ := effectOf_ret_inv h
    exact State.reg_setReg_of_ne s v hsp
  | iret => exact absurd rfl hiret

end Sys2Proof.Machine
end

section
/-! The parts of a cycle: what the poll keeps, which bytes the fetch sees, and the faults a rule can raise. -/

namespace Sys2Proof.Machine

/-! ### The poll (60_exceptions.md R211) -/

@[simp] theorem pollRequests_pc (s : State) : (pollRequests s).pc = s.pc := rfl
@[simp] theorem pollRequests_fl (s : State) : (pollRequests s).fl = s.fl := rfl
@[simp] theorem pollRequests_mem (s : State) : (pollRequests s).mem = s.mem := rfl
@[simp] theorem pollRequests_run (s : State) : (pollRequests s).run = s.run := rfl
@[simp] theorem pollRequests_trace (s : State) : (pollRequests s).trace = s.trace := rfl
@[simp] theorem pollRequests_timerDue (s : State) :
    (pollRequests s).timerDue = (s.timerDue || s.nextInput.tick) := rfl

/-- Step 1 of the poll writes the registers as one write of IS does. -/
theorem pollRequests_reg (s : State) (r : RegIx) : (pollRequests s).reg r =
    (s.setReg IS (s.reg IS ||| requestBits (s.timerDue || s.nextInput.tick) s.nextInput.kbdReq)).reg r := rfl

theorem pollRequests_reg_of_ne (s : State) {r : RegIx} (h : r ≠ IS) : (pollRequests s).reg r = s.reg r :=
  (pollRequests_reg s r).trans (State.reg_setReg_of_ne s _ h)

@[simp] theorem pollRequests_fetchBytes (s : State) : fetchBytes (pollRequests s) = fetchBytes s := rfl

theorem pollDispatch_of_none (p : Config.Params) {s : State} (h : selectLine s = none) : pollDispatch p s = .ok s := by
  simp only [pollDispatch, h]

theorem pollDispatch_of_some (p : Config.Params) {s : State} {n : Line} (h : selectLine s = some n) :
    pollDispatch p s = dispatch p n s := by
  simp only [pollDispatch, h]

/-- What the poll leaves of the state the cycle began with, in either of its steps. -/
structure Polled (s s2 : State) : Prop where
  fl : s2.fl = s.fl
  run : s2.run = s.run
  trace : s2.trace = s.trace
  timerDue : s2.timerDue = (s.timerDue || s.nextInput.tick)
  wf : s.mem.wf = true → s2.mem.wf = true

theorem polled_pollRequests (s : State) : Polled s (pollRequests s) := ⟨rfl, rfl, rfl, rfl, id⟩

theorem polled_of_pollDispatch {p : Config.Params} {s s2 : State} (h : pollDispatch p (pollRequests s) = .ok s2) :
    Polled s s2 := by
  obtain rfl | ⟨n, -, hdispatch⟩ := pollDispatch_frame h
  · exact polled_pollRequests s
  · obtain ⟨hfl, hrun, htimer, htrace, -, -, hwf, -⟩ := dispatch_frame hdispatch
    exact ⟨hfl, hrun, htrace, htimer, hwf⟩

/-! ### The fetch (30_encoding.md R93) -/

theorem fetchBytes_eq_nil {s : State} (h : 255 < s.pc.toNat) : fetchBytes s = [] := by
  have h0 : ¬ s.pc.toNat < 256 := by omega
  have h1 : ¬ s.pc.toNat + 1 < 256 := by omega
  have h2 : ¬ s.pc.toNat + 2 < 256 := by omega
  simp [fetchBytes, Config.memSize, h0, h1, h2]

/-- Inside the address space the fetch sees the byte at `pc` and the bytes after it, two or up to address 255. -/
theorem fetchBytes_eq_cons {s : State} (h : s.pc.toNat ≤ 255) :
    ∃ tl, fetchBytes s = s.mem.read s.pc.toNat :: tl ∧ tl.length = min 2 (255 - s.pc.toNat) := by
  have h0 : s.pc.toNat < 256 := by omega
  refine ⟨(([1, 2].map fun k => s.pc.toNat + k).filter fun a => decide (a < Config.memSize)).map s.mem.read, ?_, ?_⟩
  · simp [fetchBytes, Config.memSize, h0]
  · by_cases h1 : s.pc.toNat + 1 < 256
    · by_cases h2 : s.pc.toNat + 2 < 256
      · simp [Config.memSize, h1, h2]; omega
      · simp [Config.memSize, h1, h2]; omega
    · have h2 : ¬ s.pc.toNat + 2 < 256 := by omega
      simp [Config.memSize, h1, h2]; omega

theorem pc_le_of_fetchBytes_ne_nil {s : State} (h : fetchBytes s ≠ []) : s.pc.toNat ≤ 255 :=
  Nat.not_lt.mp fun hpc => h (fetchBytes_eq_nil hpc)

theorem read_pc_of_fetchBytes_cons {s : State} {op : Byte} {tl : List Byte} (h : fetchBytes s = op :: tl) :
    s.mem.read s.pc.toNat = op ∧ tl.length = min 2 (255 - s.pc.toNat) := by
  obtain ⟨tl', htl', hlen⟩ := fetchBytes_eq_cons (pc_le_of_fetchBytes_ne_nil (h ▸ List.cons_ne_nil op tl))
  obtain ⟨rfl, rfl⟩ := List.cons.inj (htl'.symm.trans h)
  exact ⟨rfl, hlen⟩

/-- A decoded instruction lies inside the address space. -/
theorem pc_add_operands_le {m : Byte → Option Byte} {s : State} {i : Instr} {rest : List Byte}
    (h : decodeWith m (fetchBytes s) = .ok (i, rest)) : s.pc.toNat + i.operands.length ≤ 255 := by
  obtain ⟨op, -, hbytes⟩ := (decodeWith_eq_ok_iff _ _ _ _).mp h
  obtain ⟨-, hlen⟩ := read_pc_of_fetchBytes_cons hbytes
  have hpc : s.pc.toNat ≤ 255 := pc_le_of_fetchBytes_ne_nil (by simp [hbytes])
  have happend : (i.operands ++ rest).length = min 2 (255 - s.pc.toNat) := hlen
  rw [List.length_append] at happend
  omega

/-- Only the opcode byte of a fetch is looked at when it is rejected as unknown. -/
theorem pc_le_of_unknownOpcode {m : Byte → Option Byte} {s : State} {op : Byte}
    (h : decodeWith m (fetchBytes s) = .error (.unknownOpcode op)) : s.pc.toNat ≤ 255 := by
  refine pc_le_of_fetchBytes_ne_nil fun hnil => ?_
  rw [hnil] at h
  cases h

/-! ### The faults -/

/-- A fault has an address exactly as AddressOutOfRange and a line exactly as UnmappedVector, and is no UnsupportedOperation
(60_exceptions.md R203, R207). -/
structure FaultInfo.Shaped (f : FaultInfo) : Prop where
  addr : f.addr.isSome = true ↔ f.kind = .addressOutOfRange
  line : f.line.isSome = true ↔ f.kind = .unmappedVector
  supported : f.kind ≠ .unsupportedOperation

theorem FaultInfo.shaped_address (a : Int) : FaultInfo.Shaped { kind := .addressOutOfRange, addr := some a } :=
  ⟨by simp, by simp, by simp⟩

theorem FaultInfo.shaped_unmappedVector (n : Line) : FaultInfo.Shaped { kind := .unmappedVector, line := some n } :=
  ⟨by simp, by simp, by simp⟩

theorem effectOf_error_shaped {i : Instr} {s : State} {f : FaultInfo} (h : effectOf i s = .error f) : f.Shaped := by
  obtain ⟨hline, ⟨hkind, haddr⟩ | ⟨hkind | hkind, haddr⟩⟩ := effectOf_error h
  · exact ⟨by simp [haddr, hkind], by simp [hline, hkind], by simp [hkind]⟩
  · exact ⟨by simp [haddr, hkind], by simp [hline, hkind], by simp [hkind]⟩
  · exact ⟨by simp [haddr, hkind], by simp [hline, hkind], by simp [hkind]⟩

theorem pushByte_error_shaped {v : Byte} {s : State} {f : FaultInfo} (h : pushByte v s = .error f) : f.Shaped := by
  by_cases h0 : s.reg SP = 0
  · rw [pushByte_zero v h0] at h
    cases h
    exact FaultInfo.shaped_address _
  · rw [pushByte_ok v h0] at h
    cases h

theorem pushRegs_error_shaped {rs : List RegIx} {s : State} {f : FaultInfo} (h : pushRegs rs s = .error f) :
    f.Shaped := by
  induction rs generalizing s with
  | nil => cases h
  | cons r rs ih =>
    rw [pushRegs] at h
    cases hpush : pushByte (s.reg r) s with
    | error g => rw [hpush] at h; cases h; exact pushByte_error_shaped hpush
    | ok s1 => rw [hpush] at h; exact ih h

theorem vectorAddress_error_shaped {p : Config.Params} {n : Line} {f : FaultInfo} (h : vectorAddress p n = .error f) :
    f.Shaped := by
  unfold vectorAddress at h
  split at h
  · cases h
  split at h
  · cases h
  split at h
  · cases h
  · cases h
    exact FaultInfo.shaped_unmappedVector n

theorem enterHandler_error_shaped {vec : Byte} {s : State} {f : FaultInfo} (h : enterHandler vec s = .error f) :
    f.Shaped := by
  unfold enterHandler at h
  split at h
  · cases h
    exact FaultInfo.shaped_address _
  cases h1 : pushByte (s.pc.setWidth 8) s with
  | error g => rw [h1] at h; cases h; exact pushByte_error_shaped h1
  | ok s1 =>
    cases h2 : pushByte s1.fl s1 with
    | error g => simp only [h1, bind, Except.bind, h2] at h; cases h; exact pushByte_error_shaped h2
    | ok s2 =>
      cases h3 : pushRegs savedRegs s2 with
      | error g => simp only [h1, bind, Except.bind, h2, h3] at h; cases h; exact pushRegs_error_shaped h3
      | ok s3 => simp only [h1, bind, Except.bind, h2, h3, memRead_byte] at h; cases h

theorem pollDispatch_error_shaped {p : Config.Params} {s : State} {f : FaultInfo} (h : pollDispatch p s = .error f) :
    f.Shaped := by
  cases hsel : selectLine s with
  | none => rw [pollDispatch_of_none p hsel] at h; cases h
  | some n =>
    rw [pollDispatch_of_some p hsel, dispatch] at h
    cases hvec : vectorAddress p n with
    | error g => rw [hvec] at h; cases h; exact vectorAddress_error_shaped hvec
    | ok vec => rw [hvec] at h; exact enterHandler_error_shaped h

end Sys2Proof.Machine
end

section
/-! What one step can do, by name, and the steps that are known in advance. -/

namespace Sys2Proof.Machine

open Sys2Proof.Claims

/-- The ways a step reaches its next state. Every fault is raised in a state the poll has left. -/
inductive StepOutcome (p : Config.Params) (s t : State) : Prop where
  | halted (hrun : s.run = .halted) (ht : t = s)
  | faulted (s2 : State) (op : Option Byte) (f : FaultInfo) (hpolled : Polled s s2) (hshaped : f.Shaped)
      (ht : t = raiseFault s2 op f)
  | noOperation (s2 : State) (op : Byte) (hrun : s.run = .running) (hpoll : pollDispatch p (pollRequests s) = .ok s2)
      (hdec : decodeWith p.opcodeMap (fetchBytes s2) = .error (.unknownOpcode op)) (ht : t = s2.setPc (s2.pc + 1))
  | completed (s2 : State) (i : Instr) (u : State) (hexec : Executes p s s2 i) (heff : effectOf i s2 = .ok u)
      (hnf : u.NotFaulted) (ht : t = advance i (s2.mem.read s2.pc.toNat) s2.pc u)

/-- An instruction that completes leaves a Running block Running or Halted. -/
theorem notFaulted_of_effectOf {i : Instr} {s t : State} (h : effectOf i s = .ok t) (hrun : s.run = .running) :
    t.NotFaulted := by
  have ht : t.run = .running ∨ t.run = .halted := by
    obtain ⟨-, -, hframe, -, -, -⟩ := effectOf_frame h
    by_cases hhlt : i = .hlt
    · subst hhlt
      cases h
      exact .inr rfl
    · exact .inl ((hframe hhlt).trans hrun)
  intro r hr
  rcases ht with ht | ht <;> cases ht.symm.trans hr

/-! The end of a cycle, field by field: it writes at most `pc` and the record (30_encoding.md R93). -/

section

variable (i : Instr) (op : Byte) (pc0 : PcWord) (t : State)

theorem advance_reg (q : RegIx) : (advance i op pc0 t).reg q = t.reg q := by
  obtain ⟨hreg, -⟩ := advance_frame i op pc0 t
  exact hreg q

theorem advance_fl : (advance i op pc0 t).fl = t.fl := by
  obtain ⟨-, hfl, -⟩ := advance_frame i op pc0 t
  exact hfl

theorem advance_timerDue : (advance i op pc0 t).timerDue = t.timerDue := by
  obtain ⟨-, -, -, htimer, -⟩ := advance_frame i op pc0 t
  exact htimer

theorem advance_trace : (advance i op pc0 t).trace = t.trace := by
  obtain ⟨-, -, -, -, htrace, -⟩ := advance_frame i op pc0 t
  exact htrace

theorem advance_notFaulted_iff : (advance i op pc0 t).NotFaulted ↔ t.NotFaulted := by
  obtain ⟨-, -, -, -, -, hiff, -⟩ := advance_frame i op pc0 t
  exact hiff

theorem advance_run {t : State} (h : t.NotFaulted) : (advance i op pc0 t).run = t.run := by
  obtain ⟨-, -, -, -, -, -, hrun⟩ := advance_frame i op pc0 t
  exact hrun h

end

/-- A cycle's fault in an executed instruction names the opcode byte fetched (60_exceptions.md R207). -/
theorem advance_raiseFault (i : Instr) (op op' : Byte) (pc0 : PcWord) (s : State) (f : FaultInfo) :
    advance i op pc0 (raiseFault s (some op') f) = raiseFault s (some op) f := by
  rw [advance_faulted (raiseFault_run s (some op') f)]
  simp only [raiseFault, State.setRun]

theorem polled_of_executes {p : Config.Params} {s s2 : State} {i : Instr} (h : Executes p s s2 i) : Polled s s2 := by
  obtain ⟨-, hpoll, -⟩ := h
  exact polled_of_pollDispatch hpoll

theorem running_of_executes {p : Config.Params} {s s2 : State} {i : Instr} (h : Executes p s s2 i) :
    s2.run = .running := by
  obtain ⟨hrun, -, -⟩ := id h
  exact (polled_of_executes h).run.trans hrun

/-- What one step can do: the split that every claim about all steps begins with (30_encoding.md R93). -/
theorem stepWith_next_outcome {p : Config.Params} {s t : State} (h : stepWith p s = .next t) : StepOutcome p s t := by
  obtain ⟨hrun, rfl⟩ | ⟨hrun, ⟨f, hpoll, rfl⟩ | ⟨s2, hpoll, hfetch⟩⟩ := stepWith_next h
  · exact .halted hrun rfl
  · exact .faulted (pollRequests s) none f (polled_pollRequests s) (pollDispatch_error_shaped hpoll) rfl
  · obtain ⟨op, f, rfl, hsupported, hline, haddr, hkind⟩ | ⟨op, hdec, rfl⟩ | ⟨i, rest, u, hdec, hu, rfl⟩ :=
      fetchExecute_next hfetch
    · exact .faulted s2 op f (polled_of_pollDispatch hpoll) ⟨haddr, by simp [hline, hkind], hsupported⟩ rfl
    · exact .noOperation s2 op hrun hpoll hdec rfl
    · have hexec : Executes p s s2 i := ⟨hrun, hpoll, rest, hdec⟩
      obtain heff | ⟨f, heff, rfl⟩ := exec_next_cases hu
      · exact .completed s2 i u hexec heff (notFaulted_of_effectOf heff (running_of_executes hexec)) rfl
      · exact .faulted s2 _ f (polled_of_executes hexec) (effectOf_error_shaped heff) (advance_raiseFault i _ _ _ s2 f)

theorem stepWith_of_pollDispatch {p : Config.Params} {s s2 : State} (hrun : s.run = .running)
    (hpoll : pollDispatch p (pollRequests s) = .ok s2) : stepWith p s = fetchExecute p s2 := by
  simp only [stepWith, hrun, runCycle, hpoll]

theorem stepWith_of_pollDispatch_error {p : Config.Params} {s : State} {f : FaultInfo} (hrun : s.run = .running)
    (hpoll : pollDispatch p (pollRequests s) = .error f) :
    stepWith p s = .next (raiseFault (pollRequests s) none f) := by
  simp only [stepWith, hrun, runCycle, hpoll]

/-- A cycle that executes an instruction that answers `u` ends in `u` advanced (30_encoding.md R93). -/
theorem stepWith_of_executes {p : Config.Params} {s s2 u : State} {i : Instr} (h : Executes p s s2 i)
    (hu : exec i s2 = .next u) : stepWith p s = .next (advance i (s2.mem.read s2.pc.toNat) s2.pc u) := by
  obtain ⟨hrun, hpoll, rest, hdec⟩ := h
  rw [stepWith_of_pollDispatch hrun hpoll]
  simp only [fetchExecute, hdec, executeInstr, hu]

/-- The step that executes an instruction, and what the instruction answered. -/
theorem exec_of_stepWith_executes {p : Config.Params} {s s2 t : State} {i : Instr} (h : Executes p s s2 i)
    (hstep : stepWith p s = .next t) :
    ∃ u, exec i s2 = .next u ∧ t = advance i (s2.mem.read s2.pc.toNat) s2.pc u := by
  obtain ⟨u, hu⟩ := everyInstructionAnswersNext i s2
  rw [stepWith_of_executes h hu] at hstep
  cases hstep
  exact ⟨u, hu, rfl⟩

/-- Settles O44: the step of a block that is not Running begins no cycle. -/
theorem terminalStatesExecuteNoCycle : Obligations.TerminalStatesExecuteNoCycle := by
  intro p s
  refine ⟨fun hrun => ?_, fun r hrun => ?_⟩
  · simp only [stepWith, hrun]
  · simp only [stepWith, hrun]

end Sys2Proof.Machine
end

section
/-! What every step keeps, whatever the parameters. -/

namespace Sys2Proof.Machine

open Sys2Proof.Claims

theorem toNat_toPc (b : Byte) : (toPc b).toNat = b.toNat := by
  have := b.isLt
  rw [toPc, BitVec.toNat_setWidth]
  omega

/-- Where an instruction that was fetched leaves `pc`: at its end, or at a byte (10_state.md R36). -/
theorem effectOf_pc_le {i : Instr} {s t : State} (h : effectOf i s = .ok t)
    (hfit : s.pc.toNat + i.operands.length ≤ 255) : t.pc.toNat ≤ 256 := by
  obtain ⟨-, -, -, -, -, hpc⟩ := effectOf_frame h
  rcases hpc with hpc | ⟨hpc, hlen⟩ | ⟨b, hpc⟩
  · rw [hpc]; omega
  · rw [hpc]; bv_omega
  · rw [hpc, toNat_toPc]
    exact Nat.le_of_lt b.isLt

theorem toNat_next_pc {pc : PcWord} {n : Nat} (h : pc.toNat + n ≤ 255) :
    (pc + 1 + BitVec.ofNat 9 n).toNat = pc.toNat + 1 + n := by
  have hone : (1 : PcWord).toNat = 1 := rfl
  rw [BitVec.toNat_add, BitVec.toNat_add, BitVec.toNat_ofNat, hone]
  omega

theorem stepWith_keeps_inv {p : Config.Params} {s t : State} (hinv : s.Inv) (h : stepWith p s = .next t) : t.Inv := by
  obtain ⟨hwf, hpc⟩ := hinv
  cases stepWith_next_outcome h with
  | halted _ ht => exact ht ▸ ⟨hwf, hpc⟩
  | faulted s2 op f _ _ ht => exact ht ▸ raiseFault_inv s2 op f
  | noOperation s2 op _ hpoll hdec ht =>
    subst ht
    have hle := pc_le_of_unknownOpcode hdec
    refine ⟨(polled_of_pollDispatch hpoll).wf hwf, ?_⟩
    rw [State.setPc_pc]
    bv_omega
  | completed s2 i u hexec heff hnf ht =>
    subst ht
    obtain ⟨-, hpoll, rest, hdec⟩ := hexec
    have hfit := pc_add_operands_le hdec
    obtain ⟨-, -, -, -, hkeeps, -⟩ := effectOf_frame heff
    have huwf : u.mem.wf = true := hkeeps ((polled_of_pollDispatch hpoll).wf hwf)
    rw [advance_ok _ _ hnf]
    split
    · exact ⟨huwf, effectOf_pc_le heff hfit⟩
    · refine ⟨huwf, ?_⟩
      rw [State.setPc_pc, toNat_next_pc hfit]
      omega

/-- Settles O43: the fetch bounds the length of what is executed, and every write of memory keeps the canonical form. -/
theorem stepKeepsInvariant : Obligations.StepKeepsInvariant :=
  fun _ _ hinv => ⟨stepWith_keeps_inv hinv, fun _ => stepWith_keeps_inv hinv⟩

/-- Settles O37: with IM = 0 the poll dispatches nothing, and the frame of the executed instruction names what writes R5. -/
theorem onlyIretOrAWriteToR5Enables : Obligations.OnlyIretOrAWriteToR5Enables := by
  intro p s t hrun hIM hstep hnf henabled
  have hpollIM : (pollRequests s).reg IM = 0 := (pollRequests_reg_of_ne s (by decide)).trans hIM
  have hnone : pollDispatch p (pollRequests s) = .ok (pollRequests s) :=
    pollDispatch_of_none p (selectLine_eq_none_of_disabled hpollIM)
  cases stepWith_next_outcome hstep with
  | halted hhalted _ => rw [hrun] at hhalted; cases hhalted
  | faulted s2 op f _ _ ht => exact absurd (ht ▸ hnf) (not_notFaulted_raiseFault s2 op f)
  | noOperation s2 op _ hpoll _ ht =>
    obtain rfl : pollRequests s = s2 := Except.ok.inj (hnone.symm.trans hpoll)
    rw [ht, State.setPc_reg] at henabled
    exact absurd hpollIM henabled
  | completed s2 i u hexec heff _ ht =>
    obtain ⟨-, hpoll, rest, hdec⟩ := hexec
    obtain rfl : pollRequests s = s2 := Except.ok.inj (hnone.symm.trans hpoll)
    rw [ht, advance_reg] at henabled
    refine ⟨i, rest, hdec, ?_⟩
    by_contra hother
    simp only [not_or] at hother
    obtain ⟨hiret, hpop, hdest⟩ := hother
    exact henabled ((effectOf_reg_of_ne heff (by decide) hiret hpop hdest).trans hpollIM)

/-- Settles O38: the poll and every fault keep a bit that is set, and so does every instruction but IRET. -/
theorem timerDueStaysUntilIret : Obligations.TimerDueStaysUntilIret := by
  intro p s t hdue hstep hcleared
  have hdue' : ∀ s2, Polled s s2 → s2.timerDue = true :=
    fun s2 hpolled => by rw [hpolled.timerDue, hdue, Bool.true_or]
  cases stepWith_next_outcome hstep with
  | halted _ ht => rw [ht, hdue] at hcleared; cases hcleared
  | noOperation s2 op _ hpoll _ ht =>
    rw [ht, State.setPc_timerDue, hdue' s2 (polled_of_pollDispatch hpoll)] at hcleared
    cases hcleared
  | faulted s2 op f hpolled _ ht => rw [ht, raiseFault_timerDue, hdue' s2 hpolled] at hcleared; cases hcleared
  | completed s2 i u hexec heff _ ht =>
    obtain ⟨-, -, -, hframe, -, -⟩ := effectOf_frame heff
    by_cases hiret : i = .iret
    · exact ⟨s2, hiret ▸ hexec⟩
    · rw [ht, advance_timerDue, hframe hiret, hdue' s2 (polled_of_executes hexec)] at hcleared
      cases hcleared

/-- Settles O45: a fault ends Faulted, and every instruction but HLT keeps the run state. -/
theorem onlyHltHalts : Obligations.OnlyHltHalts := by
  intro p s t hrun hstep hhalted
  cases stepWith_next_outcome hstep with
  | halted hs _ => rw [hrun] at hs; cases hs
  | faulted s2 op f _ _ ht => rw [ht, raiseFault_run] at hhalted; cases hhalted
  | noOperation s2 op _ hpoll _ ht =>
    rw [ht, State.setPc_run, (polled_of_pollDispatch hpoll).run, hrun] at hhalted
    cases hhalted
  | completed s2 i u hexec heff hnf ht =>
    obtain ⟨-, -, hframe, -, -, -⟩ := effectOf_frame heff
    by_cases hhlt : i = .hlt
    · exact ⟨s2, hhlt ▸ hexec⟩
    · rw [ht, advance_run _ _ _ hnf, hframe hhlt, running_of_executes hexec] at hhalted
      cases hhalted

/-- Settles O46: the poll keeps FL, and so does every instruction but CMP and IRET. -/
theorem onlyCmpAndIretWriteFlags : Obligations.OnlyCmpAndIretWriteFlags := by
  intro p s t hstep hnf hchanged
  cases stepWith_next_outcome hstep with
  | halted _ ht => exact absurd (congrArg State.fl ht) hchanged
  | faulted s2 op f _ _ ht => exact absurd (ht ▸ hnf) (not_notFaulted_raiseFault s2 op f)
  | noOperation s2 op _ hpoll _ ht =>
    rw [ht, State.setPc_fl] at hchanged
    exact absurd (polled_of_pollDispatch hpoll).fl hchanged
  | completed s2 i u hexec heff _ ht =>
    obtain ⟨hframe, -, -, -, -, -⟩ := effectOf_frame heff
    refine ⟨s2, i, hexec, ?_⟩
    by_contra hother
    simp only [not_or, not_exists] at hother
    obtain ⟨hiret, hcmp⟩ := hother
    rw [ht, advance_fl, hframe hcmp hiret] at hchanged
    exact hchanged (polled_of_executes hexec).fl

/-- Settles O48: the poll and every fault keep the trace, and so does every instruction but PRN and PRA. -/
theorem traceGrowsOnlyByOutput : Obligations.TraceGrowsOnlyByOutput := by
  intro p s t hstep hchanged
  cases stepWith_next_outcome hstep with
  | halted _ ht => exact absurd (congrArg State.trace ht) hchanged
  | noOperation s2 op _ hpoll _ ht =>
    exact absurd ((congrArg State.trace ht).trans (polled_of_pollDispatch hpoll).trace) hchanged
  | faulted s2 op f hpolled _ ht => exact absurd ((congrArg State.trace ht).trans hpolled.trace) hchanged
  | completed s2 i u hexec heff _ ht =>
    obtain ⟨-, hframe, -, -, -, -⟩ := effectOf_frame heff
    have htrace : s2.trace = s.trace := (polled_of_executes hexec).trace
    by_cases hout : ∀ a, i ≠ .prn a ∧ i ≠ .pra a
    · rw [ht, advance_trace, hframe hout] at hchanged
      exact absurd htrace hchanged
    · simp only [ne_eq, not_forall, Classical.not_and_iff_not_or_not, not_not] at hout
      obtain ⟨a, rfl | rfl⟩ := hout
      · obtain ⟨r, rfl, rfl⟩ := emitReg_ok heff
        exact ⟨s2, r, .inl ⟨hexec, by rw [ht, advance_trace, State.emit_trace, htrace]⟩⟩
      · obtain ⟨r, rfl, rfl⟩ := emitReg_ok heff
        exact ⟨s2, r, .inr ⟨hexec, by rw [ht, advance_trace, State.emit_trace, htrace]⟩⟩

/-- The record of a step that ends Faulted is that of a fault of the model's rules. -/
theorem stepWith_faulted_shaped {p : Config.Params} {s t : State} {r : FaultRecord} (hstep : stepWith p s = .next t)
    (hr : t.run = .faulted r) : FaultInfo.Shaped { kind := r.kind, addr := r.addr, line := r.line } := by
  cases stepWith_next_outcome hstep with
  | halted hrun ht => rw [ht, hrun] at hr; cases hr
  | faulted s2 op f _ hshaped ht => subst ht; cases hr; exact hshaped
  | noOperation s2 op hrun hpoll _ ht =>
    rw [ht, State.setPc_run, (polled_of_pollDispatch hpoll).run, hrun] at hr
    cases hr
  | completed s2 i u _ _ hnf ht =>
    exact absurd hr (ht ▸ (advance_notFaulted_iff i _ _ u).mpr hnf r)

/-- Settles O49: no rule of the model raises the kind. -/
theorem unsupportedOperationIsNeverRaised : Obligations.UnsupportedOperationIsNeverRaised :=
  ⟨rfl, fun _ _ _ _ hstep hr => (stepWith_faulted_shaped hstep hr).supported⟩

/-- A cycle that faults in the instruction it executes records `pc0` and the opcode byte fetched (60_exceptions.md R207). -/
theorem record_of_executes {p : Config.Params} {s s2 t : State} {i : Instr} {r : FaultRecord} (hexec : Executes p s s2 i)
    (hstep : stepWith p s = .next t) (hr : t.run = .faulted r) :
    r.pc = s2.pc ∧ r.opcode = some (s2.mem.read s2.pc.toNat) := by
  obtain ⟨u, hu, rfl⟩ := exec_of_stepWith_executes hexec hstep
  obtain heff | ⟨f, -, rfl⟩ := exec_next_cases hu
  · have hnf := notFaulted_of_effectOf heff (running_of_executes hexec)
    exact absurd hr ((advance_notFaulted_iff i _ _ u).mpr hnf r)
  · rw [advance_raiseFault] at hr
    cases hr
    exact ⟨rfl, rfl⟩

/-- Settles O50: the record has the shape of its fault, and an executed instruction's names `pc0` and its opcode byte. -/
theorem faultRecordHasItsFields : Obligations.FaultRecordHasItsFields := by
  refine ⟨rfl, fun p s t r hstep hr => ?_⟩
  obtain ⟨haddr, hline, -⟩ := stepWith_faulted_shaped hstep hr
  exact ⟨haddr, hline, fun s2 i hexec => record_of_executes hexec hstep hr⟩

end Sys2Proof.Machine
end

section
/-! The cycle, part by part: the poll, the faults of the fetch, the execution and the `pc` advance. -/

namespace Sys2Proof.Machine

open Sys2Proof.Claims

theorem pollDispatch_of_nothing (p : Config.Params) {s : State} (h : s.reg IM = 0 ∨ s.reg IM &&& s.reg IS = 0) :
    pollDispatch p s = .ok s := by
  refine pollDispatch_of_none p ?_
  by_cases hIM : s.reg IM = 0
  · exact selectLine_eq_none_of_disabled hIM
  · rw [selectLine, if_neg hIM, lowestLine_eq_none (h.resolve_left hIM)]

theorem stepsToFault_of_raiseFault {p : Config.Params} {s : State} {op : Option Byte} {f : FaultInfo}
    (h : stepWith p s = .next (raiseFault (pollRequests s) op f)) : StepsToFault p s op f :=
  ⟨_, h, raiseFault_faultedFrom _ op f⟩

/-- Settles O33: the poll's two steps field by field, then the cycle of a Running block begins with them. -/
theorem eachCycleBeginsWithThePoll : Obligations.EachCycleBeginsWithThePoll := by
  refine ⟨fun s => ?_, fun p s => pollDispatch_of_nothing p, fun p s n hIM hset hlower => ?_, fun p s hrun => ?_⟩
  · have his : (pollRequests s).reg IS = s.reg IS ||| (if (s.timerDue || s.nextInput.tick) = true then 0x01 else 0) |||
        (if s.nextInput.kbdReq = true then 0x02 else 0) := by
      rw [pollRequests_reg, State.reg_setReg_same, requestBits, BitVec.or_assoc]
    exact ⟨rfl, his, fun r hr => pollRequests_reg_of_ne s hr, rfl, rfl, rfl, rfl, rfl⟩
  · exact pollDispatch_of_some p ((selectLine_eq_some_iff hIM).mpr ⟨hset, hlower⟩)
  · exact ⟨fun s2 => stepWith_of_pollDispatch hrun,
      fun f hpoll => stepsToFault_of_raiseFault (stepWith_of_pollDispatch_error hrun hpoll)⟩

/-- Under an opcode map an unknown opcode byte is rejected whatever follows it (30_encoding.md R87). -/
theorem decodeWith_of_unknownUnder {p : Config.Params} {op : Byte} (h : UnknownUnder p op) (tl : List Byte) :
    decodeWith p.opcodeMap (op :: tl) = .error (.unknownOpcode op) := by
  cases hrow : p.opcodeMap op with
  | none => simp only [decodeWith, hrow]
  | some row =>
    have herror := (decode_eq_unknownOpcode_iff row tl).mpr (h row hrow)
    simp only [decodeWith, hrow, herror, Except.mapError, DecodeError.withOpcode]

/-- Under an opcode map an instruction cut off is rejected by its first missing operand byte (30_encoding.md R93). -/
theorem decodeWith_cut {m : Byte → Option Byte} {op : Byte} {i : Instr} {tl : List Byte} (hrow : m op = some i.opcode)
    (h : tl.length < i.operands.length) : decodeWith m (op :: tl) = .error (.missingOperand op (tl.length + 1)) := by
  simp only [decodeWith, hrow, decode_cut h, Except.mapError, DecodeError.withOpcode]

theorem operands_length_le (i : Instr) : i.operands.length ≤ 2 := by
  cases i <;> simp [Instr.operands]

/-! What the fetch answers where it decodes nothing, by the error of the decoder. -/

theorem fetchExecute_of_noBytes {p : Config.Params} {s : State}
    (h : decodeWith p.opcodeMap (fetchBytes s) = .error .noBytes) :
    fetchExecute p s = .next (raiseFault s none { kind := .addressOutOfRange, addr := some s.pc.toNat }) := by
  simp only [fetchExecute, h]

theorem fetchExecute_of_unknownOpcode {p : Config.Params} {s : State} {op : Byte}
    (h : decodeWith p.opcodeMap (fetchBytes s) = .error (.unknownOpcode op)) :
    fetchExecute p s = if p.nopAt00 = true ∧ op = 0 then .next (s.setPc (s.pc + 1))
      else .next (raiseFault s (some op) { kind := .unknownInstruction }) := by
  simp only [fetchExecute, h, Bool.and_eq_true, beq_iff_eq]

theorem fetchExecute_of_missingOperand {p : Config.Params} {s : State} {op : Byte} {k : Nat}
    (h : decodeWith p.opcodeMap (fetchBytes s) = .error (.missingOperand op k)) :
    fetchExecute p s =
      .next (raiseFault s (some op) { kind := .addressOutOfRange, addr := some (s.pc.toNat + k : Nat) }) := by
  simp only [fetchExecute, h]

/-- Settles O42: the bytes fetched decide between no byte, an unknown opcode and an operand that is not there. -/
theorem fetchFaultsInOrder : Obligations.FetchFaultsInOrder := by
  intro p s hrun hsel
  have hstep : stepWith p s = fetchExecute p (pollRequests s) :=
    stepWith_of_pollDispatch hrun (pollDispatch_of_none p hsel)
  refine ⟨fun hpc => ?_, fun hpc hunknown => ?_, fun i hpc hrow hcut => ?_⟩
  · have hdec : decodeWith p.opcodeMap (fetchBytes (pollRequests s)) = .error .noBytes := by
      rw [pollRequests_fetchBytes, fetchBytes_eq_nil hpc]; rfl
    exact stepsToFault_of_raiseFault (hstep.trans (fetchExecute_of_noBytes hdec))
  · obtain ⟨tl, hbytes, -⟩ := fetchBytes_eq_cons (s := pollRequests s) hpc
    have hdec := decodeWith_of_unknownUnder hunknown tl
    have hfetch := hstep.trans (fetchExecute_of_unknownOpcode (hbytes ▸ hdec))
    refine ⟨fun hnop => ?_, fun hfault => ?_⟩
    · rw [hfetch, if_pos hnop, pollRequests_pc]
    · rw [if_neg hfault] at hfetch
      exact stepsToFault_of_raiseFault hfetch
  · obtain ⟨tl, hbytes, hlen⟩ := fetchBytes_eq_cons (s := pollRequests s) hpc
    rw [pollRequests_pc] at hlen
    have hmax := operands_length_le i
    have hdec := decodeWith_cut (m := p.opcodeMap) (tl := tl) hrow (by omega)
    have hfetch := hstep.trans (fetchExecute_of_missingOperand (hbytes ▸ hdec))
    have haddr : (pollRequests s).pc.toNat + (tl.length + 1) = 256 := by rw [pollRequests_pc]; omega
    rw [haddr] at hfetch
    exact stepsToFault_of_raiseFault hfetch

/-- The end of a cycle of the default map whose instruction answered `t`, the poll served in `s2`. -/
theorem step_of_decode {s s2 t : State} {i : Instr} {rest : List Byte} (hrun : s.run = .running)
    (hpoll : pollDispatch Config.Params.standard (pollRequests s) = .ok s2)
    (hdec : decode (fetchBytes s2) = .ok (i, rest)) (ht : exec i s2 = .next t) :
    ((∃ r, t.run = .faulted r) → step s = .next t) ∧
    (t.NotFaulted → opSetsPc i.opcode = true → step s = .next t) ∧
    (t.NotFaulted → opSetsPc i.opcode = false →
      step s = .next (t.setPc (s2.pc + 1 + BitVec.ofNat 9 i.operands.length))) := by
  have hexec : Executes Config.Params.standard s s2 i := ⟨hrun, hpoll, rest, (decodeWith_some _).trans hdec⟩
  have hstep : step s = .next (advance i (s2.mem.read s2.pc.toNat) s2.pc t) := stepWith_of_executes hexec ht
  rw [hstep]
  refine ⟨fun ⟨r, hr⟩ => ?_, fun hnf hsets => ?_, fun hnf hsets => ?_⟩
  · obtain heff | ⟨f, -, rfl⟩ := exec_next_cases ht
    · exact absurd hr (notFaulted_of_effectOf heff (running_of_executes hexec) r)
    · obtain ⟨hop, -⟩ := read_pc_of_fetchBytes_cons (eq_encode_append_of_decode hdec)
      rw [advance_raiseFault, hop]
  · rw [advance_ok _ _ hnf, if_pos hsets]
  · rw [advance_ok _ _ hnf, if_neg (by rw [hsets]; exact Bool.false_ne_true)]

/-- Settles O39: the poll dispatches nothing, so the instruction runs in the polled state. -/
theorem stepRunsTheDecodedInstruction : Obligations.StepRunsTheDecodedInstruction :=
  fun s _ _ _ hrun hsel hdec ht => step_of_decode (s2 := pollRequests s) hrun (pollDispatch_of_none _ hsel) hdec ht

/-- Settles O41: the poll's dispatch completes, so the instruction runs in the dispatched state. -/
theorem dispatchingCycleRunsTheHandler : Obligations.DispatchingCycleRunsTheHandler :=
  fun _ _ _ _ _ _ hrun hsel hdispatch hdec ht =>
    step_of_decode hrun ((pollDispatch_of_some _ hsel).trans hdispatch) hdec ht

/-- Settles O40: what is executed was fetched below 256, so the advance does not wrap. -/
theorem pcAdvancesByTheLength : Obligations.PcAdvancesByTheLength := by
  intro p s s2 i t hexec hstep hnf
  obtain ⟨-, -, rest, hdec⟩ := id hexec
  obtain ⟨u, hu, rfl⟩ := exec_of_stepWith_executes hexec hstep
  rw [advance_ok _ _ ((advance_notFaulted_iff i _ _ u).mp hnf), opOperandCount_opcode]
  refine ⟨fun hsets => ?_, fun hsets => ?_⟩
  · rw [if_neg (by rw [hsets]; exact Bool.false_ne_true), State.setPc_pc, toNat_next_pc (pc_add_operands_le hdec)]
  · rw [if_pos hsets, hu]

/-- Settles O21: HLT has opcode bit 4 = 0 and no operands, so the cycle advances `pc` by 1. -/
theorem hltHaltsAndAdvances : Obligations.HltHaltsAndAdvances := by
  have hhlt : ∀ s, exec .hlt s = .next (s.setRun .halted) := fun s => exec_of_effectOf_ok rfl
  refine ⟨decode_encode_append .hlt, hhlt, fun p s s2 hexec => ?_⟩
  have hnf : (s2.setRun .halted).NotFaulted := fun r hr => by cases hr
  rw [stepWith_of_executes hexec (hhlt s2), advance_ok _ _ hnf]
  simp [Instr.opcode, opSetsPc, Instr.operands]

/-- Settles O32: the byte written is the first the fetch reads at that address. -/
theorem storeIsSeenByTheNextFetch : Obligations.StoreIsSeenByTheNextFetch := by
  intro ra rb s hwf
  refine ⟨_, exec_of_effectOf_ok (effectOf_st ra rb s), fun u hmem hpc => ?_⟩
  have hpc' : u.pc.toNat = (s.reg ra).toNat := hpc ▸ toNat_toPc (s.reg ra)
  obtain ⟨tl, hbytes, -⟩ := fetchBytes_eq_cons (s := u) (by have := (s.reg ra).isLt; omega)
  rw [hbytes, hmem, hpc', State.setMem_mem, Memory.read_write_same _ _ hwf, List.head?_cons]

end Sys2Proof.Machine
end

section
/-! Pairs of instructions: RET comes back behind its CALL, POP undoes PUSH (41_control_flow.md R142, R144). -/

namespace Sys2Proof.Machine

theorem toNat_ne_zero {b : Byte} (h : b ≠ 0) : b.toNat ≠ 0 := by bv_omega

theorem pred_ne_top {b : Byte} (h : b ≠ 0) : b - 1 ≠ 255 := by bv_omega

theorem toPc_return_address {pc : PcWord} (h : pc.toNat ≤ 253) : toPc (BitVec.ofNat 8 (pc.toNat + 2)) = pc + 2 := by
  apply BitVec.eq_of_toNat_eq
  rw [toNat_toPc]
  bv_omega

/-- Settles O30: the byte CALL leaves on the stack top is the call address + 2, which RET loads. -/
theorem retReturnsBehindTheCall : Obligations.RetReturnsBehindTheCall := by
  intro r s hwf hpc hsp
  refine ⟨_, exec_of_effectOf_ok (by rw [effectOf_call_near hpc, pushByte_ok _ hsp]; rfl), fun u husp hutop => ?_⟩
  rw [State.setPc_reg, State.setMem_reg, State.reg_setReg_same] at husp
  rw [State.setPc_reg, State.setMem_reg, State.reg_setReg_same, State.setPc_mem, State.setMem_mem,
    Memory.read_write_same _ _ hwf] at hutop
  have hroom : u.reg SP ≠ 255 := husp ▸ pred_ne_top hsp
  rw [exec_of_effectOf_ok (effectOf_ret_ok hroom), hutop, toPc_return_address hpc, husp, BitVec.sub_add_cancel]

theorem State.reg_setReg_self (s : State) (r q : RegIx) : (s.setReg r (s.reg r)).reg q = s.reg q := by
  rw [State.reg_setReg]
  split
  · simp [*]
  · rfl

/-- Settles O31: POP reads the byte just pushed and increments the decremented SP. -/
theorem popUndoesPush : Obligations.PopUndoesPush := by
  intro r s hwf hsp
  let s1 := s.setReg SP (s.reg SP - 1)
  let t := s1.setMem (s.mem.write (s.reg SP - 1).toNat (s1.reg r))
  have hpush : effectOf (.push (regByte r)) s = .ok t := (effectOf_push r s).trans (pushByte_ok _ hsp)
  have htsp : t.reg SP = s.reg SP - 1 := State.reg_setReg_same s SP _
  have htop : t.mem.read (t.reg SP).toNat = s1.reg r := by
    rw [htsp, State.setMem_mem, Memory.read_write_same _ _ hwf]
  have hregs : ∀ q, (t.setReg r (s1.reg r)).reg q = s1.reg q :=
    fun q => State.reg_setReg_self s1 r q
  have hsp1 : (t.setReg r (s1.reg r)).reg SP = s.reg SP - 1 := (hregs SP).trans (State.reg_setReg_same s SP _)
  have hpop : effectOf (.pop (regByte r)) t = .ok ((t.setReg r (s1.reg r)).setReg SP (s.reg SP)) := by
    rw [effectOf_pop, htop, incSp_ok (by rw [hsp1]; exact pred_ne_top hsp), hsp1, BitVec.sub_add_cancel]
  refine ⟨t, _, exec_of_effectOf_ok hpush, exec_of_effectOf_ok hpop, fun q => ?_, rfl, rfl, fun a ha => ?_⟩
  · by_cases hq : q = SP
    · rw [hq, State.reg_setReg_same]
    · rw [State.reg_setReg_of_ne _ _ hq, hregs, State.reg_setReg_of_ne _ _ hq]
  · exact Memory.read_write_of_ne _ hwf ha

end Sys2Proof.Machine
end

section
/-! Dispatch: when it faults, what a dispatch that completes leaves, and that IRET undoes it (60_exceptions.md R216 to R221). -/

namespace Sys2Proof.Machine

/-! ### The faults -/

theorem vectorAddress_of_lt {p : Config.Params} {n : Line} (h : n.val < 2) : ∃ vec, vectorAddress p n = .ok vec := by
  obtain rfl | rfl : n = 0 ∨ n = 1 := by
    revert n
    decide
  · exact ⟨Config.vecTimer, rfl⟩
  · exact ⟨Config.vecKbd, rfl⟩

theorem line_ne_of_ge {n : Line} (h : 2 ≤ n.val) : n ≠ 0 ∧ n ≠ 1 := by
  revert n
  decide

/-- From line 2 on the vector is the parameter's (60_exceptions.md R217). -/
theorem vectorAddress_of_vecHigh {p : Config.Params} {n : Line} {vec : Byte} (h : 2 ≤ n.val)
    (hvec : p.vecHigh n = some vec) : vectorAddress p n = .ok vec := by
  obtain ⟨h0, h1⟩ := line_ne_of_ge h
  simp only [vectorAddress, h0, h1, if_false, hvec]

theorem vectorAddress_of_vecHigh_none {p : Config.Params} {n : Line} (h : 2 ≤ n.val) (hnone : p.vecHigh n = none) :
    vectorAddress p n = .error { kind := .unmappedVector, line := some n } := by
  obtain ⟨h0, h1⟩ := line_ne_of_ge h
  simp only [vectorAddress, h0, h1, if_false, hnone]

theorem dispatch_of_vectorAddress {p : Config.Params} {n : Line} {vec : Byte} (h : vectorAddress p n = .ok vec)
    (s : State) : dispatch p n s = enterHandler vec (acknowledge n s) := by
  rw [dispatch, h]; rfl

theorem dispatch_of_vectorAddress_error {p : Config.Params} {n : Line} {f : FaultInfo}
    (h : vectorAddress p n = .error f) (s : State) : dispatch p n s = .error f := by
  rw [dispatch, h]; rfl

theorem pushRegs_noRoom {rs : List RegIx} {s : State} (h : (s.reg SP).toNat < rs.length) :
    pushRegs rs s = .error { kind := .addressOutOfRange, addr := some (-1) } := by
  induction rs generalizing s with
  | nil => simp at h
  | cons r rs ih =>
    rw [pushRegs]
    by_cases h0 : s.reg SP = 0
    · rw [pushByte_zero _ h0]; rfl
    · rw [pushByte_ok _ h0]
      refine ih ?_
      rw [State.setMem_reg, State.reg_setReg_same, toNat_pred h0]
      rw [List.length_cons] at h
      have hpos := toNat_ne_zero h0
      omega

theorem pushByte_reg_sp {v : Byte} {s t : State} (h : pushByte v s = .ok t) :
    (t.reg SP).toNat = (s.reg SP).toNat - 1 := by
  obtain ⟨h0, rfl⟩ := pushByte_inv h
  rw [State.setMem_reg, State.reg_setReg_same, toNat_pred h0]

/-- Fewer than nine bytes below SP: one of the nine pushes faults (60_exceptions.md R216). -/
theorem enterHandler_noRoom {s : State} (hpc : s.pc.toNat ≤ 255) (hsp : (s.reg SP).toNat < 9) (vec : Byte) :
    enterHandler vec s = .error { kind := .addressOutOfRange, addr := some (-1) } := by
  rw [enterHandler, if_neg (by omega)]
  by_cases h0 : s.reg SP = 0
  · rw [pushByte_zero _ h0]; rfl
  have h1 := pushByte_ok (s.pc.setWidth 8) h0
  have hsp1 := pushByte_reg_sp h1
  rw [h1]
  set s1 := (s.setReg SP (s.reg SP - 1)).setMem (s.mem.write (s.reg SP - 1).toNat (s.pc.setWidth 8))
  show (pushByte s1.fl s1 >>= _) = _
  by_cases h0' : s1.reg SP = 0
  · rw [pushByte_zero _ h0']; rfl
  have h2 := pushByte_ok s1.fl h0'
  have hsp2 := pushByte_reg_sp h2
  rw [h2]
  set s2 := (s1.setReg SP (s1.reg SP - 1)).setMem (s1.mem.write (s1.reg SP - 1).toNat s1.fl)
  show (pushRegs savedRegs s2 >>= _) = _
  have hroom : (s2.reg SP).toNat < savedRegs.length := by
    have hpos := toNat_ne_zero h0'
    rw [show savedRegs.length = 7 from rfl]
    omega
  rw [pushRegs_noRoom hroom]; rfl

theorem dispatch_pcBeyond {p : Config.Params} {n : Line} {vec : Byte} {s : State} (hvec : vectorAddress p n = .ok vec)
    (hpc : 255 < s.pc.toNat) : dispatch p n s = .error { kind := .addressOutOfRange, addr := some s.pc.toNat } := by
  rw [dispatch_of_vectorAddress hvec, enterHandler]
  exact if_pos hpc

theorem dispatch_noRoom {p : Config.Params} {n : Line} {vec : Byte} {s : State} (hvec : vectorAddress p n = .ok vec)
    (hpc : s.pc.toNat ≤ 255) (hsp : (s.reg SP).toNat < 9) :
    dispatch p n s = .error { kind := .addressOutOfRange, addr := some (-1) } := by
  obtain ⟨hpcA, -, -, -, -, -, -, -, hregA⟩ := acknowledge_fields n s
  rw [dispatch_of_vectorAddress hvec]
  exact enterHandler_noRoom (by rw [hpcA]; exact hpc) (by rw [hregA SP (by decide) (by decide)]; exact hsp) vec

/-- Settles O35: the vector is looked up first, `pc` is checked next, and then the pushes run. -/
theorem dispatchFaultsInOrder : Obligations.DispatchFaultsInOrder := by
  have hmapped : ∀ (p : Config.Params) (n : Line), n.val < 2 ∨ (p.vecHigh n).isSome = true →
      ∃ vec, vectorAddress p n = .ok vec := by
    intro p n hn
    rcases Nat.lt_or_ge n.val 2 with hlow | hhigh
    · exact vectorAddress_of_lt hlow
    · obtain ⟨vec, hvec⟩ := Option.isSome_iff_exists.mp (hn.resolve_left (by omega))
      exact ⟨vec, vectorAddress_of_vecHigh hhigh hvec⟩
  refine ⟨fun p n s hhigh hnone => ?_, fun p n s hn hpc => ?_, fun p n s hn hpc hsp => ?_⟩
  · exact dispatch_of_vectorAddress_error (vectorAddress_of_vecHigh_none hhigh hnone) s
  · obtain ⟨vec, hvec⟩ := hmapped p n hn
    exact dispatch_pcBeyond hvec hpc
  · obtain ⟨vec, hvec⟩ := hmapped p n hn
    exact dispatch_noRoom hvec hpc hsp

/-! ### A dispatch that completes -/

/-- What a dispatch of line `n` through the vector address `vec` leaves: the frame of nine bytes below SP, the registers, and
every byte of memory outside the frame (60_exceptions.md R216, R219). -/
structure Dispatched (n : Line) (vec : Byte) (s t : State) : Prop where
  sp : (t.reg SP).toNat = (s.reg SP).toNat - 9
  im : t.reg IM = 0
  is : t.reg IS = s.reg IS &&& ~~~((1 : Byte) <<< n.val)
  reg : ∀ r : RegIx, r.val < 5 → t.reg r = s.reg r
  framePc : t.mem.read ((s.reg SP).toNat - 1) = s.pc.setWidth 8
  frameFl : t.mem.read ((s.reg SP).toNat - 2) = s.fl
  frameReg : ∀ r : RegIx, r.val < 5 → t.mem.read ((s.reg SP).toNat - 3 - r.val) = s.reg r
  frameIm : t.mem.read ((s.reg SP).toNat - 8) = 0
  frameIs : t.mem.read ((s.reg SP).toNat - 9) = t.reg IS
  outside : ∀ a, a < (s.reg SP).toNat - 9 ∨ (s.reg SP).toNat ≤ a → t.mem.read a = s.mem.read a
  pc : t.pc = toPc (t.mem.read vec.toNat)
  fl : t.fl = s.fl
  run : t.run = s.run
  timerDue : t.timerDue = s.timerDue
  trace : t.trace = s.trace

/-- R0 to R4 are no interrupt register and not SP (10_state.md R31, R32). -/
theorem ne_special_of_lt {r : RegIx} (h : r.val < 5) : r ≠ IM ∧ r ≠ IS ∧ r ≠ SP := by
  revert r
  decide

/-- Dispatch completes with a vector, `pc` at most 255 and room for nine bytes (60_exceptions.md R216). -/
theorem dispatch_ok {p : Config.Params} {n : Line} {vec : Byte} {s : State} (hvec : vectorAddress p n = .ok vec)
    (hpc : s.pc.toNat ≤ 255) (hsp : 9 ≤ (s.reg SP).toNat) (hwf : s.mem.wf = true) :
    ∃ t, dispatch p n s = .ok t ∧ Dispatched n vec s t := by
  obtain ⟨hpcA, hflA, hmemA, -, -, -, himA, hisA, hregA⟩ := acknowledge_fields n s
  have hspA : (acknowledge n s).reg SP = s.reg SP := hregA SP (by decide) (by decide)
  obtain ⟨t, ht, -, hspT, hframePc, hframeFl, hframeReg, hout, hpcT⟩ := enterHandler_ok vec (acknowledge n s)
    (by rw [hpcA]; exact hpc) (by rw [hspA]; exact hsp) (by rw [hmemA]; exact hwf)
  rw [hspA] at hspT hframePc hframeFl hframeReg hout
  have hdispatch : dispatch p n s = .ok t := (dispatch_of_vectorAddress hvec s).trans ht
  obtain ⟨hfl, hrun, htimer, htrace, him, hreg, -, -⟩ := dispatch_frame hdispatch
  refine ⟨t, hdispatch, hspT, him, dispatch_is hdispatch, fun r hr => ?_, hpcA ▸ hframePc, hframeFl.trans hflA,
    fun r hr => ?_, ?_, ?_, fun a ha => (hout a ha).trans (by rw [hmemA]), hpcT, hfl, hrun, htimer, htrace⟩
  · obtain ⟨h5, h6, h7⟩ := ne_special_of_lt hr
    exact hreg r h5 h6 h7
  · obtain ⟨h5, h6, -⟩ := ne_special_of_lt hr
    exact (hframeReg r.val (by omega)).trans (hregA r h5 h6)
  · exact (hframeReg 5 (by omega)).trans himA
  · exact (hframeReg 6 (by omega)).trans (hisA.trans (dispatch_is hdispatch).symm)

theorem dispatched_of_dispatch {p : Config.Params} {n : Line} {s t : State} (hpc : s.pc.toNat ≤ 255)
    (hsp : 9 ≤ (s.reg SP).toNat) (hwf : s.mem.wf = true) (h : dispatch p n s = .ok t) :
    ∃ vec, vectorAddress p n = .ok vec ∧ Dispatched n vec s t := by
  obtain ⟨vec, hvec, -⟩ := dispatch_inv h
  obtain ⟨t', ht', hdispatched⟩ := dispatch_ok hvec hpc hsp hwf
  obtain rfl : t = t' := Except.ok.inj (h.symm.trans ht')
  exact ⟨vec, hvec, hdispatched⟩

theorem toPc_setWidth_of_le {pc : PcWord} (h : pc.toNat ≤ 255) : toPc (pc.setWidth 8) = pc := by
  apply BitVec.eq_of_toNat_eq
  rw [toNat_toPc, BitVec.toNat_setWidth]
  omega

/-- Clearing a bit of a byte (60_exceptions.md R216). -/
theorem getLsbD_and_not_one_shiftLeft (b : Byte) (n m : Nat) :
    (b &&& ~~~((1 : Byte) <<< n)).getLsbD m = (b.getLsbD m && decide (m ≠ n)) := by
  by_cases h : m = n
  · subst h
    simp
  · rw [getLsbD_and_not_one_shiftLeft_of_ne b h]
    simp [h]

/-- Settles O34: the dispatch through the line's vector completes and leaves the frame. -/
theorem dispatchSavesTheContext : Obligations.DispatchSavesTheContext := by
  intro p n vec s hn hpc hsp hwf
  have hvec : vectorAddress p n = .ok vec := by
    rcases hn with ⟨rfl, rfl⟩ | ⟨rfl, rfl⟩ | ⟨hhigh, hvec⟩
    · rfl
    · rfl
    · exact vectorAddress_of_vecHigh hhigh hvec
  obtain ⟨t, ht, d⟩ := dispatch_ok hvec hpc hsp hwf
  have hframePc : (t.mem.read ((s.reg SP).toNat - 1)).toNat = s.pc.toNat := by
    rw [d.framePc, BitVec.toNat_setWidth]
    omega
  have his : ∀ m, (t.reg IS).getLsbD m = ((s.reg IS).getLsbD m && decide (m ≠ n.val)) :=
    fun m => by rw [d.is, getLsbD_and_not_one_shiftLeft]
  exact ⟨t, ht, d.sp, d.im, his, d.reg, hframePc, d.frameFl, d.frameReg, d.frameIm, d.frameIs, d.outside, d.pc, d.fl,
    d.run, d.timerDue, d.trace⟩

/-- Settles O36: IRET pops the nine bytes of the frame back to where dispatch took them from. -/
theorem iretUndoesDispatch : Obligations.IretUndoesDispatch := by
  intro p n s t hpc hsp hwf hdispatch u husp hkept
  obtain ⟨vec, -, d⟩ := dispatched_of_dispatch hpc hsp hwf hdispatch
  have hmax := (s.reg SP).isLt
  have hspU : (u.reg SP).toNat = (s.reg SP).toNat - 9 := by rw [husp, d.sp]
  have hframe : ∀ k < 9, u.mem.read ((u.reg SP).toNat + k) = t.mem.read ((s.reg SP).toNat - (9 - k)) := by
    intro k hk
    rw [hspU, hkept _ (by rw [d.sp]; omega) (by omega)]
    congr 1
    omega
  have hframeReg : ∀ r : RegIx, r.val < 5 → u.mem.read ((u.reg SP).toNat + (6 - r.val)) = s.reg r := by
    intro r hr
    rw [hframe _ (by omega), ← d.frameReg r hr]
    congr 1
    omega
  obtain ⟨v, hv, hmem, hrun, htrace, htimer, him, hspV, his, h4, h3, h2, h1, h0, hfl, hpcV⟩ :=
    interruptReturn_ok (s := u) (by omega)
  refine ⟨v, exec_of_effectOf_ok hv, fun r hr => ?_, ?_, ?_, ?_, ?_, him, htimer, hmem, hrun, htrace⟩
  · obtain rfl | rfl | rfl | rfl | rfl : r = 0 ∨ r = 1 ∨ r = 2 ∨ r = 3 ∨ r = 4 := by
      revert r
      decide
    · exact h0.trans (hframeReg 0 hr)
    · exact h1.trans (hframeReg 1 hr)
    · exact h2.trans (hframeReg 2 hr)
    · exact h3.trans (hframeReg 3 hr)
    · exact h4.trans (hframeReg 4 hr)
  · apply BitVec.eq_of_toNat_eq
    omega
  · exact hfl.trans ((hframe 7 (by omega)).trans d.frameFl)
  · rw [hpcV, hframe 8 (by omega), d.framePc, toPc_setWidth_of_le hpc]
  · exact his.trans ((hframe 0 (by omega)).trans d.frameIs)

end Sys2Proof.Machine
end

section
/-! FL is read by the conditional jumps and by dispatch only (10_state.md R42): every other operation commutes with replacing
FL. -/

namespace Sys2Proof.Machine

open Sys2Proof.Claims

/-! ### The shared operations commute with replacing FL -/

theorem bindReg_map {o : Byte} {g : State → State} {k k' : RegIx → Except FaultInfo State}
    (h : ∀ r, k' r = (k r).map g) : (reg o >>= k') = (reg o >>= k).map g := by
  cases hreg : reg o with
  | ok r => exact h r
  | error f => rfl

section

variable (s : State) (f : Byte)

theorem unaryOp_setFl (g : Byte → Byte) (o : Byte) :
    unaryOp g o (s.setFl f) = (unaryOp g o s).map (·.setFl f) := bindReg_map fun _ => rfl

theorem binaryOp_setFl (g : Byte → Byte → Byte) (o1 o2 : Byte) :
    binaryOp g o1 o2 (s.setFl f) = (binaryOp g o1 o2 s).map (·.setFl f) :=
  bindReg_map fun _ => bindReg_map fun _ => rfl

theorem divisionOp_setFl (g : Byte → Byte → Byte) (o1 o2 : Byte) :
    divisionOp g o1 o2 (s.setFl f) = (divisionOp g o1 o2 s).map (·.setFl f) := by
  refine bindReg_map fun a => bindReg_map fun b => ?_
  rw [State.setFl_reg]
  split <;> rfl

theorem condJump_setFl (taken : Bool) (o : Byte) :
    condJump taken o (s.setFl f) = (condJump taken o s).map (·.setFl f) := by
  refine bindReg_map fun r => ?_
  cases taken <;> rfl

theorem emitReg_setFl (ev : Byte → OutEvent) (o : Byte) :
    emitReg ev o (s.setFl f) = (emitReg ev o s).map (·.setFl f) := bindReg_map fun _ => rfl

theorem decSp_setFl : decSp (s.setFl f) = (decSp s).map (·.setFl f) := by
  rw [decSp, decSp, State.setFl_reg]
  split <;> rfl

theorem incSp_setFl : incSp (s.setFl f) = (incSp s).map (·.setFl f) := by
  rw [incSp, incSp, State.setFl_reg]
  split <;> rfl

theorem pushByte_setFl (v : Byte) : pushByte v (s.setFl f) = (pushByte v s).map (·.setFl f) := by
  by_cases h0 : s.reg SP = 0
  · rw [pushByte_zero v h0, pushByte_zero v (s := s.setFl f) h0]; rfl
  · rw [pushByte_ok v h0, pushByte_ok v (s := s.setFl f) h0]; rfl

theorem popByte_setFl : popByte (s.setFl f) = (popByte s).map fun x => (x.1, x.2.setFl f) := by
  by_cases htop : s.reg SP = 255
  · rw [popByte_top htop, popByte_top (s := s.setFl f) htop]; rfl
  · rw [popByte_ok htop, popByte_ok (s := s.setFl f) htop]; rfl

end

theorem popRegs_setFl (rs : List RegIx) (s : State) (f : Byte) :
    popRegs rs (s.setFl f) = (popRegs rs s).map (·.setFl f) := by
  induction rs generalizing s with
  | nil => rfl
  | cons r rs ih =>
    rw [popRegs, popRegs, popByte_setFl]
    cases popByte s with
    | error e => rfl
    | ok x => exact ih (x.2.setReg r x.1)

/-! ### The instructions -/

/-- The results agree but for FL: the same fault, or states that differ at most in FL. -/
inductive SameButFl : Except FaultInfo State → Except FaultInfo State → Prop where
  | error (e : FaultInfo) : SameButFl (.error e) (.error e)
  | ok {t u : State} (h : u.setFl t.fl = t) : SameButFl (.ok t) (.ok u)

theorem SameButFl.refl (x : Except FaultInfo State) : SameButFl x x := by
  cases x with
  | error e => exact .error e
  | ok t => exact .ok rfl

theorem SameButFl.of_map {x y : Except FaultInfo State} {f : Byte} (h : y = x.map (·.setFl f)) : SameButFl x y := by
  subst h
  cases x with
  | error e => exact .error e
  | ok t => exact .ok rfl

theorem agreesButFl_of_sameButFl {i : Instr} {s : State} {f : Byte}
    (h : SameButFl (effectOf i s) (effectOf i (s.setFl f))) : AgreesButFl i s f := by
  generalize hx : effectOf i s = x at h
  generalize hy : effectOf i (s.setFl f) = y at h
  cases h with
  | error e =>
    have hs : exec i s = .next (raiseFault s (some i.opcode) e) := by rw [exec_eq_conclude, hx, conclude_error]
    have hsf : exec i (s.setFl f) = .next (raiseFault (s.setFl f) (some i.opcode) e) := by
      rw [exec_eq_conclude, hy, conclude_error]
    exact ⟨_, _, hs, hsf, rfl, rfl, rfl, fun hnf => absurd hnf (not_notFaulted_raiseFault s _ e)⟩
  | @ok t u hfl =>
    have hrun : u.run = t.run := (State.setFl_run u t.fl).symm.trans (congrArg State.run hfl)
    have htrace : u.trace = t.trace := (State.setFl_trace u t.fl).symm.trans (congrArg State.trace hfl)
    have htimer : u.timerDue = t.timerDue := (State.setFl_timerDue u t.fl).symm.trans (congrArg State.timerDue hfl)
    exact ⟨t, u, exec_of_effectOf_ok hx, exec_of_effectOf_ok hy, hrun, htrace, htimer, fun _ => hfl⟩

/-- CMP overwrites FL without reading it (40_alu.md R124). -/
theorem effectOf_cmp_setFl (a b : Byte) (s : State) (f : Byte) :
    effectOf (.cmp a b) (s.setFl f) = effectOf (.cmp a b) s := rfl

/-- IRET overwrites FL without reading it (43_interrupt_return.md R190). -/
theorem effectOf_iret_setFl (s : State) (f : Byte) : effectOf .iret (s.setFl f) = effectOf .iret s := by
  rw [effectOf, effectOf, interruptReturn, interruptReturn, popRegs_setFl]
  cases popRegs savedRegs.reverse s with
  | error e => rfl
  | ok s1 =>
    show (popByte (s1.setFl f) >>= _) = (popByte s1 >>= _)
    rw [popByte_setFl]
    cases popByte s1 <;> rfl

/-- An instruction other than the conditional jumps reads no flag. -/
theorem effectOf_sameButFl {i : Instr} (hi : ∀ mk ∈ condJumps, ∀ a, i ≠ mk a) (s : State) (f : Byte) :
    SameButFl (effectOf i s) (effectOf i (s.setFl f)) := by
  cases i with
  | add | sub | mul | and | or | xor | shl | shr =>
    simp only [effectOf]
    exact .of_map (binaryOp_setFl s f _ _ _)
  | div | mod =>
    simp only [effectOf]
    exact .of_map (divisionOp_setFl s f _ _ _)
  | inc | dec | not | ldi =>
    simp only [effectOf]
    exact .of_map (unaryOp_setFl s f _ _)
  | jmp a => exact .of_map (condJump_setFl s f true a)
  | prn | pra => exact .of_map (emitReg_setFl s f _ _)
  | cmp a b => rw [effectOf_cmp_setFl]; exact .refl _
  | iret => rw [effectOf_iret_setFl]; exact .refl _
  | hlt => exact .ok rfl
  | ld a b =>
    refine .of_map (f := f) (bindReg_map fun ra => bindReg_map fun rb => ?_)
    rw [memRead_byte, memRead_byte]; rfl
  | st a b =>
    refine .of_map (f := f) (bindReg_map fun ra => bindReg_map fun rb => ?_)
    rw [memWrite_byte, memWrite_byte]; rfl
  | push a =>
    refine .of_map (f := f) (bindReg_map fun r => ?_)
    rw [decSp_setFl]
    cases decSp s with
    | error e => rfl
    | ok s1 =>
      show memWrite (s1.setFl f) (s1.reg SP).toNat _ = (memWrite s1 (s1.reg SP).toNat _).map _
      rw [memWrite_byte, memWrite_byte]; rfl
  | pop a =>
    refine .of_map (f := f) (bindReg_map fun r => ?_)
    rw [memRead_byte, memRead_byte]
    exact incSp_setFl (s.setReg r (s.mem.read (s.reg SP).toNat)) f
  | call a =>
    refine .of_map (f := f) (bindReg_map fun r => ?_)
    rw [State.setFl_pc, pushByte_setFl]
    split
    · rfl
    · cases pushByte (BitVec.ofNat 8 (s.pc.toNat + 2)) s <;> rfl
  | ret =>
    refine .of_map (f := f) ?_
    simp only [effectOf, popByte_setFl]
    cases popByte s <;> rfl
  | jeq a => exact absurd rfl (hi .jeq (by simp [condJumps]) a)
  | jne a => exact absurd rfl (hi .jne (by simp [condJumps]) a)
  | jgt a => exact absurd rfl (hi .jgt (by simp [condJumps]) a)
  | jge a => exact absurd rfl (hi .jge (by simp [condJumps]) a)
  | jlt a => exact absurd rfl (hi .jlt (by simp [condJumps]) a)
  | jle a => exact absurd rfl (hi .jle (by simp [condJumps]) a)

/-- A conditional jump reads bits 0 to 2 of FL only (41_control_flow.md R146). -/
theorem effectOf_condJump_sameButFl {mk : Byte → Instr} (hmk : mk ∈ condJumps) (a : Byte) {s : State} {f : Byte}
    (hbits : ∀ k < 3, f.getLsbD k = s.fl.getLsbD k) : SameButFl (effectOf (mk a) s) (effectOf (mk a) (s.setFl f)) := by
  have hE : flagE f = flagE s.fl := hbits 0 (by decide)
  have hG : flagG f = flagG s.fl := hbits 1 (by decide)
  have hL : flagL f = flagL s.fl := hbits 2 (by decide)
  apply SameButFl.of_map (f := f)
  simp only [condJumps, List.mem_cons, List.not_mem_nil, or_false] at hmk
  rcases hmk with rfl | rfl | rfl | rfl | rfl | rfl <;>
    simp only [effectOf, State.setFl_fl, condEq, condNe, condGt, condGe, condLt, condLe, hE, hG, hL, condJump_setFl]

/-! ### Dispatch -/

/-- A dispatch from states that differ in FL faults alike, or completes from both through the same vector. -/
theorem dispatch_setFl_cases (p : Config.Params) (n : Line) {s : State} (f : Byte) (hwf : s.mem.wf = true) :
    (∃ e, dispatch p n s = .error e ∧ dispatch p n (s.setFl f) = .error e) ∨
    (9 ≤ (s.reg SP).toNat ∧ ∃ vec t u, vectorAddress p n = .ok vec ∧ dispatch p n s = .ok t ∧
      dispatch p n (s.setFl f) = .ok u ∧ Dispatched n vec s t ∧ Dispatched n vec (s.setFl f) u) := by
  cases hvec : vectorAddress p n with
  | error e => exact .inl ⟨e, dispatch_of_vectorAddress_error hvec s, dispatch_of_vectorAddress_error hvec _⟩
  | ok vec =>
    rcases Nat.lt_or_ge 255 s.pc.toNat with hpc | hpc
    · exact .inl ⟨_, dispatch_pcBeyond hvec hpc, dispatch_pcBeyond (s := s.setFl f) hvec hpc⟩
    rcases Nat.lt_or_ge (s.reg SP).toNat 9 with hsp | hsp
    · exact .inl ⟨_, dispatch_noRoom hvec hpc hsp, dispatch_noRoom (s := s.setFl f) hvec hpc hsp⟩
    obtain ⟨t, ht, dt⟩ := dispatch_ok hvec hpc hsp hwf
    obtain ⟨u, hu, du⟩ := dispatch_ok (s := s.setFl f) hvec hpc hsp hwf
    exact .inr ⟨hsp, vec, t, u, rfl, ht, hu, dt, du⟩

section

variable {n : Line} {vec : Byte} {s t u : State} {f : Byte} (dt : Dispatched n vec s t)
  (du : Dispatched n vec (s.setFl f) u)

include dt du

theorem Dispatched.reg_eq_of_setFl (r : RegIx) : u.reg r = t.reg r := by
  have hspecial : r.val < 5 ∨ r = IM ∨ r = IS ∨ r = SP := by
    revert r
    decide
  rcases hspecial with hr | rfl | rfl | rfl
  · exact (du.reg r hr).trans (dt.reg r hr).symm
  · exact du.im.trans dt.im.symm
  · exact du.is.trans dt.is.symm
  · exact BitVec.eq_of_toNat_eq (du.sp.trans dt.sp.symm)

/-- FL lies in one byte of the frame; the others are the same. -/
theorem Dispatched.read_eq_of_setFl (hsp : 9 ≤ (s.reg SP).toNat) {a : Nat} (ha : a ≠ (s.reg SP).toNat - 2) :
    u.mem.read a = t.mem.read a := by
  by_cases hout : a < (s.reg SP).toNat - 9 ∨ (s.reg SP).toNat ≤ a
  · exact (du.outside a hout).trans (dt.outside a hout).symm
  by_cases hpc : a = (s.reg SP).toNat - 1
  · exact hpc ▸ du.framePc.trans dt.framePc.symm
  by_cases him : a = (s.reg SP).toNat - 8
  · exact him ▸ du.frameIm.trans dt.frameIm.symm
  by_cases his : a = (s.reg SP).toNat - 9
  · exact his ▸ du.frameIs.trans ((dt.reg_eq_of_setFl du IS).trans dt.frameIs.symm)
  have hreg : (s.reg SP).toNat - 3 - a < 5 := by omega
  have ha' : a = (s.reg SP).toNat - 3 - ((s.reg SP).toNat - 3 - a) := by omega
  rw [ha']
  exact (du.frameReg ⟨_, by omega⟩ hreg).trans (dt.frameReg ⟨_, by omega⟩ hreg).symm

end

theorem dispatchAgreesButFl (p : Config.Params) (n : Line) {s : State} (f : Byte) (hwf : s.mem.wf = true) :
    DispatchAgreesButFl p n s f := by
  obtain ⟨e, hs, hsf⟩ | ⟨hsp, vec, t, u, hvec, ht, hu, dt, du⟩ := dispatch_setFl_cases p n f hwf
  · refine ⟨fun e' he' => ?_, fun t ht => ?_⟩
    · rwa [← he', hs]
    · rw [hs] at ht
      cases ht
  · refine ⟨fun e he => ?_, fun t' ht' => ?_⟩
    · rw [ht] at he
      cases he
    · obtain rfl : t = t' := Except.ok.inj (ht.symm.trans ht')
      refine ⟨u, hu, dt.frameFl, du.frameFl, fun a => dt.read_eq_of_setFl du hsp, dt.reg_eq_of_setFl du,
        du.run.trans dt.run.symm, du.timerDue.trans dt.timerDue.symm, du.trace.trans dt.trace.symm,
        fun vec' hvec' hne => ?_⟩
      obtain rfl : vec = vec' := Except.ok.inj (hvec.symm.trans hvec')
      rw [du.pc, dt.pc, dt.read_eq_of_setFl du hsp hne]

/-! ### The cycle -/

theorem advance_setFl (i : Instr) (op : Byte) (pc0 : PcWord) (t : State) (f : Byte) :
    advance i op pc0 (t.setFl f) = (advance i op pc0 t).setFl f := by
  rw [advance, advance, State.setFl_run]
  split
  · rfl
  · split <;> rfl

/-- Settles O47: each operation commutes with replacing FL, but for what reads or overwrites it. -/
theorem flagsAreReadOnlyByJumpsAndDispatch : Obligations.FlagsAreReadOnlyByJumpsAndDispatch :=
  ⟨fun _ s f hi => agreesButFl_of_sameButFl (effectOf_sameButFl hi s f),
    fun _ hmk a _ _ hbits => agreesButFl_of_sameButFl (effectOf_condJump_sameButFl hmk a hbits),
    fun p n _ f hwf => dispatchAgreesButFl p n f hwf, fun _ _ => ⟨rfl, rfl, rfl⟩, advance_setFl⟩

end Sys2Proof.Machine
end

section
/-! Byte arithmetic as the statements write it: exact numbers modulo 256 (00_scope.md R11, 40_alu.md R125). -/

namespace Sys2Proof.Machine

open Sys2Proof.Claims

theorem mod256_eq_ofInt (z : Int) : mod256 z = BitVec.ofInt 8 z :=
  BitVec.eq_of_toNat_eq (by rw [mod256, BitVec.toNat_ofNat, BitVec.toNat_ofInt]; omega)

theorem ofInt_toNat (x : Byte) : BitVec.ofInt 8 x.toNat = x := by
  rw [BitVec.ofInt_natCast, BitVec.ofNat_toNat, BitVec.setWidth_eq]

theorem add_eq_mod256 (x y : Byte) : x + y = mod256 (x.toNat + y.toNat) := by
  rw [mod256_eq_ofInt, BitVec.ofInt_add, ofInt_toNat, ofInt_toNat]

theorem sub_eq_mod256 (x y : Byte) : x - y = mod256 (x.toNat - y.toNat) := by
  rw [mod256_eq_ofInt, Int.sub_eq_add_neg, BitVec.ofInt_add, BitVec.ofInt_neg, ofInt_toNat, ofInt_toNat,
    BitVec.sub_eq_add_neg]

theorem mul_eq_mod256 (x y : Byte) : x * y = mod256 (x.toNat * y.toNat) := by
  rw [mod256_eq_ofInt, BitVec.ofInt_mul, ofInt_toNat, ofInt_toNat]

theorem shiftLeft_eq_mod256 (x : Byte) (n : Nat) : x <<< n = mod256 (x.toNat * 2 ^ n) := by
  rw [mod256_eq_ofInt]
  apply BitVec.eq_of_toNat_eq
  have hcast : (x.toNat : Int) * 2 ^ n = ((x.toNat * 2 ^ n : Nat) : Int) := by push_cast; rfl
  rw [hcast, BitVec.ofInt_natCast, BitVec.toNat_ofNat, BitVec.toNat_shiftLeft, Nat.shiftLeft_eq]

theorem ushiftRight_eq_ofNat (x : Byte) (n : Nat) : x >>> n = BitVec.ofNat 8 (x.toNat / 2 ^ n) := by
  apply BitVec.eq_of_toNat_eq
  rw [BitVec.toNat_ushiftRight, Nat.shiftRight_eq_div_pow, BitVec.toNat_ofNat,
    Nat.mod_eq_of_lt (Nat.lt_of_le_of_lt (Nat.div_le_self _ _) x.isLt)]

theorem udiv_eq_ofNat (x y : Byte) : x / y = BitVec.ofNat 8 (x.toNat / y.toNat) := by
  apply BitVec.eq_of_toNat_eq
  rw [BitVec.toNat_udiv, BitVec.toNat_ofNat, Nat.mod_eq_of_lt (Nat.lt_of_le_of_lt (Nat.div_le_self _ _) x.isLt)]

theorem umod_eq_ofNat (x y : Byte) : x % y = BitVec.ofNat 8 (x.toNat % y.toNat) := by
  apply BitVec.eq_of_toNat_eq
  rw [BitVec.toNat_umod, BitVec.toNat_ofNat, Nat.mod_eq_of_lt (Nat.lt_of_le_of_lt (Nat.mod_le _ _) x.isLt)]

theorem not_eq_ofNat (x : Byte) : ~~~x = BitVec.ofNat 8 (255 - x.toNat) := by
  apply BitVec.eq_of_toNat_eq
  rw [BitVec.toNat_not, BitVec.toNat_ofNat]
  omega

end Sys2Proof.Machine
end

section
/-! The rule of each instruction: its word decodes to it, its effect on registers, its fault on other operand bytes. -/

namespace Sys2Proof.Machine

open Sys2Proof.Claims

theorem decode_of_encode_eq {i : Instr} {bs : List Byte} (h : encode i = bs) (rest : List Byte) :
    decode (bs ++ rest) = .ok (i, rest) :=
  h ▸ decode_encode_append i rest

/-- An operand byte of 8 or more raises InvalidRegister, with the opcode byte in the record (30_encoding.md R83). -/
theorem exec_invalidRegister {i : Instr} {op o : Byte} {os : List Byte} (henc : encode i = op :: os)
    (hmem : o ∈ i.regOperands) (s : State) (h : 8 ≤ o.toNat) :
    ∃ t, exec i s = .next t ∧ t.FaultedFrom s (some op) { kind := .invalidRegister } := by
  obtain ⟨rfl, -⟩ := opcode_and_length_of_encode henc
  have hwf : i.wf = false := List.all_eq_false.mpr ⟨o, hmem, by simpa using h⟩
  exact illFormedInstructionRaisesInvalidRegister i s hwf

theorem exec_invalidRegister_unary {i : Instr} {op a : Byte} {os : List Byte} (henc : encode i = op :: os)
    (hregs : i.regOperands = [a]) (s : State) (h : 8 ≤ a.toNat) :
    ∃ t, exec i s = .next t ∧ t.FaultedFrom s (some op) { kind := .invalidRegister } :=
  exec_invalidRegister henc (hregs ▸ List.mem_singleton_self a) s h

theorem exec_invalidRegister_binary {i : Instr} {op a b : Byte} {os : List Byte} (henc : encode i = op :: os)
    (hregs : i.regOperands = [a, b]) (s : State)
    (h : 8 ≤ a.toNat ∨ 8 ≤ b.toNat) :
    ∃ t, exec i s = .next t ∧ t.FaultedFrom s (some op) { kind := .invalidRegister } := by
  rcases h with ha | hb
  · exact exec_invalidRegister henc (hregs ▸ List.mem_cons_self) s ha
  · exact exec_invalidRegister henc (hregs ▸ List.mem_cons_of_mem a List.mem_cons_self) s hb

/-! ### The rules, from the effect on register operands -/

section

variable {op : Byte}

theorem binaryRule_of_effectOf {mk : Byte → Byte → Instr} {eff : RegIx → RegIx → State → State}
    (henc : ∀ a b, encode (mk a b) = [op, a, b]) (hregs : ∀ a b, (mk a b).regOperands = [a, b])
    (heff : ∀ ra rb s, effectOf (mk (regByte ra) (regByte rb)) s = .ok (eff ra rb s)) : BinaryRule op mk eff :=
  ⟨fun a b => decode_of_encode_eq (henc a b), fun ra rb s => exec_of_effectOf_ok (heff ra rb s),
    fun a b => exec_invalidRegister_binary (henc a b) (hregs a b)⟩

theorem divisionRule_of_effectOf {mk : Byte → Byte → Instr} {f : Nat → Nat → Nat}
    (henc : ∀ a b, encode (mk a b) = [op, a, b]) (hregs : ∀ a b, (mk a b).regOperands = [a, b])
    (heff : ∀ ra rb s, s.reg rb ≠ 0 → effectOf (mk (regByte ra) (regByte rb)) s =
      .ok (s.setReg ra (BitVec.ofNat 8 (f (s.reg ra).toNat (s.reg rb).toNat))))
    (hzero : ∀ ra rb s, s.reg rb = 0 →
      effectOf (mk (regByte ra) (regByte rb)) s = .error { kind := .divisionByZero }) : DivisionRule op mk f := by
  refine ⟨fun a b => decode_of_encode_eq (henc a b), fun ra rb s h => exec_of_effectOf_ok (heff ra rb s h),
    fun ra rb s h => ?_, fun a b => exec_invalidRegister_binary (henc a b) (hregs a b)⟩
  obtain ⟨rfl, -⟩ := opcode_and_length_of_encode (henc (regByte ra) (regByte rb))
  exact exec_of_effectOf_error (hzero ra rb s h)

theorem unaryRule_of_effectOf {mk : Byte → Instr} {eff : RegIx → State → State}
    (henc : ∀ a, encode (mk a) = [op, a]) (hregs : ∀ a, (mk a).regOperands = [a])
    (heff : ∀ ra s, effectOf (mk (regByte ra)) s = .ok (eff ra s)) : UnaryRule op mk eff :=
  ⟨fun a => decode_of_encode_eq (henc a), fun ra s => exec_of_effectOf_ok (heff ra s),
    fun a => exec_invalidRegister_unary (henc a) (hregs a)⟩

theorem jumpRule_of_effectOf {mk : Byte → Instr} {cond : Byte → Prop} {taken : Byte → Bool}
    (henc : ∀ a, encode (mk a) = [op, a]) (hregs : ∀ a, (mk a).regOperands = [a])
    (heff : ∀ a s, effectOf (mk a) s = condJump (taken s.fl) a s) (hcond : ∀ fl, taken fl = true ↔ cond fl) :
    JumpRule op mk cond := by
  have hjump : ∀ ra s, exec (mk (regByte ra)) s = .next (s.setPc (if taken s.fl then toPc (s.reg ra) else s.pc + 2)) :=
    fun ra s => exec_of_effectOf_ok ((heff _ s).trans (condJump_regs _ ra s))
  refine ⟨fun a => decode_of_encode_eq (henc a), fun ra s h => ?_, fun ra s h => ?_,
    fun a => exec_invalidRegister_unary (henc a) (hregs a)⟩
  · rw [hjump, if_pos ((hcond _).mpr h), toPc]
  · rw [hjump, if_neg (mt (hcond _).mp h)]

end

/-! ### ALU -/

/-- Settles O4: byte addition, subtraction and multiplication are those of the integers modulo 256. -/
theorem addSubMulWrapModulo256 : Obligations.AddSubMulWrapModulo256 := by
  refine ⟨binaryRule_of_effectOf (fun _ _ => rfl) (fun _ _ => rfl) fun ra rb s => ?_,
    binaryRule_of_effectOf (fun _ _ => rfl) (fun _ _ => rfl) fun ra rb s => ?_,
    binaryRule_of_effectOf (fun _ _ => rfl) (fun _ _ => rfl) fun ra rb s => ?_⟩
  · rw [effectOf, binaryOp_regs, add_eq_mod256]
  · rw [effectOf, binaryOp_regs, sub_eq_mod256]
  · rw [effectOf, binaryOp_regs, mul_eq_mod256]

/-- Settles O5: unsigned division of bytes is that of the numbers. -/
theorem divModUnsignedOrDivisionByZero : Obligations.DivModUnsignedOrDivisionByZero := by
  refine ⟨divisionRule_of_effectOf (fun _ _ => rfl) (fun _ _ => rfl) (fun ra rb s h => ?_) fun ra rb s h => ?_,
    divisionRule_of_effectOf (fun _ _ => rfl) (fun _ _ => rfl) (fun ra rb s h => ?_) fun ra rb s h => ?_⟩
  · rw [effectOf, divisionOp_regs, if_neg h, udiv_eq_ofNat]
  · rw [effectOf, divisionOp_regs, if_pos h]
  · rw [effectOf, divisionOp_regs, if_neg h, umod_eq_ofNat]
  · rw [effectOf, divisionOp_regs, if_pos h]

/-- Settles O6: the byte 1 is subtracted or added modulo 256. -/
theorem decIncWrapModulo256 : Obligations.DecIncWrapModulo256 := by
  refine ⟨unaryRule_of_effectOf (fun _ => rfl) (fun _ => rfl) fun ra s => ?_,
    unaryRule_of_effectOf (fun _ => rfl) (fun _ => rfl) fun ra s => ?_⟩
  · rw [effectOf, unaryOp_regs, sub_eq_mod256]; rfl
  · rw [effectOf, unaryOp_regs, add_eq_mod256]; rfl

/-- Settles O7: the bits of the byte operations, and the complement to 255. -/
theorem logicIsBitwise : Obligations.LogicIsBitwise := by
  refine ⟨⟨_, fun x y n => BitVec.getLsbD_and, binaryRule_of_effectOf (fun _ _ => rfl) (fun _ _ => rfl) fun ra rb s => ?_⟩,
    ⟨_, fun x y n => BitVec.getLsbD_or, binaryRule_of_effectOf (fun _ _ => rfl) (fun _ _ => rfl) fun ra rb s => ?_⟩,
    ⟨_, fun x y n => BitVec.getLsbD_xor, binaryRule_of_effectOf (fun _ _ => rfl) (fun _ _ => rfl) fun ra rb s => ?_⟩,
    unaryRule_of_effectOf (fun _ => rfl) (fun _ => rfl) fun ra s => ?_⟩
  · rw [effectOf, binaryOp_regs]
  · rw [effectOf, binaryOp_regs]
  · rw [effectOf, binaryOp_regs]
  · rw [effectOf, unaryOp_regs, not_eq_ofNat]

/-- Settles O8: a shift by the whole byte divides or multiplies by a power of 2. -/
theorem shiftsByTheWholeByte : Obligations.ShiftsByTheWholeByte := by
  refine ⟨binaryRule_of_effectOf (fun _ _ => rfl) (fun _ _ => rfl) fun ra rb s => ?_,
    binaryRule_of_effectOf (fun _ _ => rfl) (fun _ _ => rfl) fun ra rb s => ?_⟩
  · rw [effectOf, binaryOp_regs, ushiftRight_eq_ofNat]
  · rw [effectOf, binaryOp_regs, shiftLeft_eq_mod256]

/-- The FL byte of an order of two numbers (40_alu.md R124). -/
def orderFlags (x y : Nat) : Byte := if x = y then 0x01 else if x > y then 0x02 else 0x04

/-- Settles O9: the FL byte CMP writes depends on the unsigned order only. -/
theorem cmpSetsExactlyOneFlag : Obligations.CmpSetsExactlyOneFlag := by
  refine ⟨orderFlags, fun x y h => if_pos h, fun x y h => ?_, fun x y h => ?_,
    binaryRule_of_effectOf (fun _ _ => rfl) (fun _ _ => rfl) effectOf_cmp⟩
  · rw [orderFlags, if_neg (Nat.ne_of_gt h), if_pos h]
  · rw [orderFlags, if_neg (Nat.ne_of_lt h), if_neg (Nat.lt_asymm h)]

/-! ### Stack and control flow -/

/-- Settles O10: PUSH pushes the register as read after the decrement. -/
theorem pushDecrementsThenStores : Obligations.PushDecrementsThenStores := by
  refine ⟨fun a => decode_encode_append (.push a), fun r s hsp => ?_, fun r s hsp => ?_,
    fun a => exec_invalidRegister_unary (i := .push a) rfl rfl⟩
  · rw [exec_of_effectOf_ok ((effectOf_push r s).trans (pushByte_ok _ hsp)), State.reg_setReg]
  · exact exec_of_effectOf_error ((effectOf_push r s).trans (pushByte_zero _ hsp))

theorem State.setReg_setReg (s : State) (r : RegIx) (v w : Byte) : (s.setReg r v).setReg r w = s.setReg r w := by
  refine State.ext_reg (fun q => ?_) rfl rfl rfl rfl rfl rfl rfl rfl
  simp only [State.reg_setReg]
  split <;> rfl

/-- Settles O11: POP writes the register, then increments SP as it then stands. -/
theorem popLoadsThenIncrements : Obligations.PopLoadsThenIncrements := by
  have hother : ∀ (r : RegIx) (s : State) v, r ≠ SP → (s.setReg r v).reg SP = s.reg SP :=
    fun r s v hr => State.reg_setReg_of_ne s v (Ne.symm hr)
  refine ⟨fun a => decode_encode_append (.pop a), fun r s hr hsp => ?_, fun s hv => ?_, fun r s hfault => ?_,
    fun a => exec_invalidRegister_unary (i := .pop a) rfl rfl⟩
  · rw [exec_of_effectOf_ok ((effectOf_pop r s).trans (incSp_ok (by rwa [hother r s _ hr]))), hother r s _ hr]
  · have hsame := State.reg_setReg_same s SP (s.mem.read (s.reg SP).toNat)
    rw [exec_of_effectOf_ok ((effectOf_pop SP s).trans (incSp_ok (by rwa [hsame]))), hsame,
      State.setReg_setReg]
  · refine exec_of_effectOf_error ((effectOf_pop r s).trans (incSp_top ?_))
    rcases hfault with ⟨hr, hsp⟩ | ⟨rfl, hv⟩
    · rw [hother r s _ hr, hsp]
    · rw [State.reg_setReg_same, hv]

/-- Settles O12: the return address is checked, then pushed, and the register is read after the push. -/
theorem callPushesReturnAddress : Obligations.CallPushesReturnAddress := by
  refine ⟨fun a => decode_encode_append (.call a), fun r s hpc hsp => ?_, fun r s hpc => ?_, fun r s hpc hsp => ?_,
    fun a => exec_invalidRegister_unary (i := .call a) rfl rfl⟩
  · have heff := effectOf_call_near hpc r
    rw [pushByte_ok _ hsp] at heff
    refine (exec_of_effectOf_ok heff).trans ?_
    simp only [State.setMem_reg, State.reg_setReg, toPc]
  · exact exec_of_effectOf_error (effectOf_call_far hpc r)
  · have heff := effectOf_call_near hpc r
    rw [pushByte_zero _ hsp] at heff
    exact exec_of_effectOf_error heff

/-- Settles O13: RET pops one byte. -/
theorem retPopsProgramCounter : Obligations.RetPopsProgramCounter :=
  ⟨decode_encode_append .ret, fun _ hsp => exec_of_effectOf_ok (effectOf_ret_ok hsp),
    fun _ hsp => exec_of_effectOf_error (effectOf_ret_top hsp)⟩

/-- Settles O14: JMP is the jump that is always taken. -/
theorem jmpGoesToTheRegister : Obligations.JmpGoesToTheRegister :=
  unaryRule_of_effectOf (fun _ => rfl) (fun _ => rfl) (condJump_regs true)

/-- Settles O15: the condition is one bit of FL. -/
theorem jumpsOnOneFlag : Obligations.JumpsOnOneFlag := by
  refine ⟨jumpRule_of_effectOf (taken := condEq) (fun _ => rfl) (fun _ => rfl) (fun _ _ => rfl) fun fl => Iff.rfl,
    jumpRule_of_effectOf (taken := condNe) (fun _ => rfl) (fun _ => rfl) (fun _ _ => rfl) fun fl => ?_,
    jumpRule_of_effectOf (taken := condGt) (fun _ => rfl) (fun _ => rfl) (fun _ _ => rfl) fun fl => Iff.rfl,
    jumpRule_of_effectOf (taken := condLt) (fun _ => rfl) (fun _ => rfl) (fun _ _ => rfl) fun fl => Iff.rfl⟩
  rw [condNe, Bool.not_eq_true', flagE]

/-- Settles O16: the condition is that one of two bits of FL is set. -/
theorem jumpsOnTwoFlags : Obligations.JumpsOnTwoFlags :=
  ⟨jumpRule_of_effectOf (taken := condGe) (fun _ => rfl) (fun _ => rfl) (fun _ _ => rfl) fun _ => Bool.or_eq_true_iff,
    jumpRule_of_effectOf (taken := condLe) (fun _ => rfl) (fun _ => rfl) (fun _ _ => rfl) fun _ => Bool.or_eq_true_iff⟩

/-! ### Data, output, interrupt return -/

/-- Settles O17: ST is one write of memory. -/
theorem stStoresThroughTheRegister : Obligations.StStoresThroughTheRegister :=
  binaryRule_of_effectOf (fun _ _ => rfl) (fun _ _ => rfl) effectOf_st

/-- Settles O18: LD is one write of a register. -/
theorem ldLoadsThroughTheRegister : Obligations.LdLoadsThroughTheRegister :=
  binaryRule_of_effectOf (fun _ _ => rfl) (fun _ _ => rfl) effectOf_ld

/-- Settles O19: LDI checks its first operand byte and writes the second. -/
theorem ldiLoadsTheImmediate : Obligations.LdiLoadsTheImmediate :=
  ⟨fun a imm => decode_encode_append (.ldi a imm),
    fun r imm s => exec_of_effectOf_ok (i := .ldi (regByte r) imm) (unaryOp_regs (fun _ => imm) r s),
    fun a imm => exec_invalidRegister_unary (i := .ldi a imm) rfl rfl⟩

/-- Settles O20: PRN and PRA emit one event. -/
theorem outputEmitsTheRegister : Obligations.OutputEmitsTheRegister :=
  ⟨unaryRule_of_effectOf (fun _ => rfl) (fun _ => rfl) (emitReg_regs .prn),
    unaryRule_of_effectOf (fun _ => rfl) (fun _ => rfl) (emitReg_regs .pra)⟩

/-- Popping more bytes than lie above SP faults (43_interrupt_return.md R190). -/
theorem popRegs_noRoom {rs : List RegIx} {s : State} (hsp : SP ∉ rs) (h : 255 < (s.reg SP).toNat + rs.length) :
    popRegs rs s = .error { kind := .addressOutOfRange, addr := some 256 } := by
  induction rs generalizing s with
  | nil =>
    have := (s.reg SP).isLt
    rw [List.length_nil] at h
    omega
  | cons r rs ih =>
    obtain ⟨hr, hrs⟩ : SP ≠ r ∧ SP ∉ rs := by simpa using hsp
    rw [popRegs]
    by_cases htop : s.reg SP = 255
    · rw [popByte_top htop]; rfl
    · rw [popByte_ok htop]
      refine ih hrs ?_
      rw [State.reg_setReg_of_ne _ _ hr, State.reg_setReg_same, toNat_succ htop]
      rw [List.length_cons] at h
      omega

/-- Fewer than nine bytes up to address 255: one of the nine pops faults (43_interrupt_return.md R190). -/
theorem interruptReturn_noRoom {s : State} (h : 0xF6 < (s.reg SP).toNat) :
    interruptReturn s = .error { kind := .addressOutOfRange, addr := some 256 } := by
  have hlen : savedRegs.reverse.length = 7 := rfl
  rw [interruptReturn]
  rcases Nat.lt_or_ge 255 ((s.reg SP).toNat + savedRegs.reverse.length) with hover | hroom
  · rw [popRegs_noRoom (by decide) hover]; rfl
  obtain ⟨s1, h1, hsp1, -, -⟩ := popRegs_ok hroom (by decide) (by decide)
  rw [h1]
  show (popByte s1 >>= _) = _
  by_cases htop : s1.reg SP = 255
  · rw [popByte_top htop]; rfl
  rw [popByte_ok htop]
  show (popByte ((s1.setReg SP (s1.reg SP + 1)).setFl (s1.mem.read (s1.reg SP).toNat)) >>= _) = _
  have hlast : ((s1.setReg SP (s1.reg SP + 1)).setFl (s1.mem.read (s1.reg SP).toNat)).reg SP = 255 := by
    have hsucc := toNat_succ htop
    have hmax := (s1.reg SP + 1).isLt
    rw [State.setFl_reg, State.reg_setReg_same]
    apply BitVec.eq_of_toNat_eq
    show (s1.reg SP + 1).toNat = 255
    omega
  rw [popByte_top hlast]; rfl

/-- Settles O22: the nine pops, register by register. -/
theorem iretRestoresTheFrame : Obligations.IretRestoresTheFrame := by
  refine ⟨decode_encode_append .iret, fun s hsp => ?_, fun s hsp => exec_of_effectOf_error (interruptReturn_noRoom hsp)⟩
  obtain ⟨t, ht, hmem, hrun, htrace, htimer, him, hspT, his, h4, h3, h2, h1, h0, hfl, hpc⟩ := interruptReturn_ok hsp
  exact ⟨t, exec_of_effectOf_ok ht, his, him, h4, h3, h2, h1, h0, hfl, hpc, hspT, htimer, hmem, hrun, htrace⟩

end Sys2Proof.Machine
end

section
/-! Reset with an image preloaded (70_reset_and_hazards.md R240). -/

namespace Sys2Proof.Machine

theorem preload_of_le (s : State) {image : List Byte} (h : image.length ≤ Config.memSize) :
    s.preload image = some (s.setMem (s.mem.writeBytes 0 image)) :=
  if_pos h

theorem preload_inv {s t : State} {image : List Byte} (h : s.preload image = some t) :
    image.length ≤ Config.memSize ∧ t = s.setMem (s.mem.writeBytes 0 image) := by
  by_cases hfits : image.length ≤ Config.memSize
  · rw [preload_of_le s hfits] at h
    exact ⟨hfits, (Option.some.inj h).symm⟩
  · rw [State.preload, if_neg hfits] at h
    cases h

/-- Settles O52: the preload writes the image into the zero-filled memory and keeps the values of reset. -/
theorem resetLeavesTheStatedValues : Obligations.ResetLeavesTheStatedValues := by
  intro r0 r1 r2 r3 r4 image hfits
  have hread : ∀ a, (Memory.writeBytes [] 0 image).read a = image.getD a 0 := by
    intro a
    rw [Memory.read_writeBytes image a Memory.wf_nil (by rw [Nat.zero_add]; exact hfits), if_pos (Nat.zero_le a)]
    rfl
  exact ⟨_, preload_of_le _ hfits, rfl, rfl, rfl, rfl, rfl, rfl, rfl, rfl, rfl, rfl, hread, rfl, rfl, rfl⟩

/-- Settles O53: an image that fits keeps memory canonical, and `pc` is 0. -/
theorem resetMeetsInvariant : Obligations.ResetMeetsInvariant := by
  refine ⟨⟨Memory.wf_nil, Nat.zero_le _⟩, fun r0 r1 r2 r3 r4 image t h => ?_⟩
  obtain ⟨hfits, rfl⟩ := preload_inv h
  exact ⟨Memory.wf_writeBytes image Memory.wf_nil (by rw [Nat.zero_add]; exact hfits), Nat.zero_le _⟩

end Sys2Proof.Machine
end
